-- ==== Sys2Proof/Word.lean ====
section
/-! DEFINITION. The two machine words of the block: the 32-bit word of a host access and of an
instruction, and the byte of memory. -/

namespace Sys2Proof

/-- One byte lane of a 32-bit word (rule R53). -/
abbrev Byte := BitVec 8

/-- A 32-bit word: a host access moves one (rule R55), an instruction is one (rule R80). -/
abbrev Word := BitVec 32

end Sys2Proof
end

