-- ==== Sys2Proof/Syntax.lean ====
section
/-! DEFINITION. The instruction set: one constructor for each of the 19 rows of
spec/opcode_table.json (rule R86). Operands are values, not bits: an immediate is the integer of
rule R87, a branch offset the signed integer of rule R88, a jump target the index of rule R89. -/

namespace Sys2Proof

/-- A register number: every value 0 to 15 names a register, none is special (rule R90). -/
abbrev Reg := Fin 16

/-- The 19 instructions (rule R86), operands in the order of the assembler syntax of rule R95. -/
inductive Instr where
  /-- `nop` (R142) -/
  | nop
  /-- `halt` (R158) -/
  | halt
  /-- `jmp T` (R145) -/
  | jmp (tgt : Nat)
  /-- `beq ra, rb, off` (R146) -/
  | beq (ra rb : Reg) (off : Int)
  /-- `bne ra, rb, off` (R147) -/
  | bne (ra rb : Reg) (off : Int)
  /-- `bltu ra, rb, off` (R148) -/
  | bltu (ra rb : Reg) (off : Int)
  /-- `bgeu ra, rb, off` (R149) -/
  | bgeu (ra rb : Reg) (off : Int)
  /-- `ldi rd, imm` (R143) -/
  | ldi (rd : Reg) (imm : Nat)
  /-- `mov rd, ra` (R144) -/
  | mov (rd ra : Reg)
  /-- `sqr rd, ra` (R101) -/
  | sqr (rd ra : Reg)
  /-- `inc rd, ra` (R102) -/
  | inc (rd ra : Reg)
  /-- `dec rd, ra` (R103) -/
  | dec (rd ra : Reg)
  /-- `lcm rd, ra, rb` (R104) -/
  | lcm (rd ra rb : Reg)
  /-- `lfn rd, ra, rb` (R105): ra holds x, rb holds n -/
  | lfn (rd ra rb : Reg)
  /-- `mul rd, ra, rb` (R106) -/
  | mul (rd ra rb : Reg)
  /-- `modpow rd, ra, rb, rc` (R121): base, exponent, modulus -/
  | modpow (rd ra rb rc : Reg)
  /-- `modinv rd, ra, rc` (R125): value, modulus -/
  | modinv (rd ra rc : Reg)
  /-- `modmul rd, ra, rb, rc` (R128): factors, modulus -/
  | modmul (rd ra rb rc : Reg)
  /-- `montmul rd, ra, rb, rc` (R131): factors, modulus -/
  | montmul (rd ra rb rc : Reg)
  deriving DecidableEq, Repr

/-- The register an instruction's `rd` field names, if it has one (rules R22, R86). -/
def Instr.dest : Instr → Option Reg
  | .nop | .halt | .jmp _ => none
  | .beq _ _ _ | .bne _ _ _ | .bltu _ _ _ | .bgeu _ _ _ => none
  | .ldi rd _ => some rd
  | .mov rd _ | .sqr rd _ | .inc rd _ | .dec rd _ => some rd
  | .lcm rd _ _ | .lfn rd _ _ | .mul rd _ _ => some rd
  | .modinv rd _ _ => some rd
  | .modpow rd _ _ _ | .modmul rd _ _ _ | .montmul rd _ _ _ => some rd

/-- The registers an instruction's source fields name (rule R22). -/
def Instr.sources : Instr → List Reg
  | .nop | .halt | .jmp _ | .ldi _ _ => []
  | .beq ra rb _ | .bne ra rb _ | .bltu ra rb _ | .bgeu ra rb _ => [ra, rb]
  | .mov _ ra | .sqr _ ra | .inc _ ra | .dec _ ra => [ra]
  | .lcm _ ra rb | .lfn _ ra rb | .mul _ ra rb => [ra, rb]
  | .modinv _ ra rc => [ra, rc]
  | .modpow _ ra rb rc | .modmul _ ra rb rc | .montmul _ ra rb rc => [ra, rb, rc]

end Sys2Proof
end

