-- ==== Sys2Proof/WellFormed.lean ====
section
/-! DEFINITION. Which terms of Instr are instructions: the operand ranges an assembler enforces
(rule R95). Register numbers are in range by their type (rule R90). -/

namespace Sys2Proof

/-- An immediate or a jump target is in 0..65535 (rules R87, R89, R95). -/
def fitsUnsigned16 (v : Nat) : Bool := decide (v ≤ 65535)

/-- A branch offset is in -32768..32767 (rules R88, R95). -/
def fitsSigned16 (v : Int) : Bool := decide (-32768 ≤ v ∧ v ≤ 32767)

/-- Every operand of the instruction is one its encoding can hold (rule R95). -/
def Instr.wellFormed : Instr → Bool
  | .ldi _ imm => fitsUnsigned16 imm
  | .jmp tgt => fitsUnsigned16 tgt
  | .beq _ _ off => fitsSigned16 off
  | .bne _ _ off => fitsSigned16 off
  | .bltu _ _ off => fitsSigned16 off
  | .bgeu _ _ off => fitsSigned16 off
  | .nop | .halt => true
  | .mov _ _ | .sqr _ _ | .inc _ _ | .dec _ _ => true
  | .lcm _ _ _ | .lfn _ _ _ | .mul _ _ _ | .modinv _ _ _ => true
  | .modpow _ _ _ _ | .modmul _ _ _ _ | .montmul _ _ _ _ => true

end Sys2Proof
end

