-- ==== Sys2Proof/Decode.lean ====
section
/-! DEFINITION. The decoder, table driven as rule R94 writes it, total on all 2^32 words and
rejecting by name; and after it the encoder, written from the formats of rules R81 to R85. -/

namespace Sys2Proof

/-- Why a word is no instruction; both raise ILLEGAL_INSTRUCTION when executed (rules R91, R92). -/
inductive Illegal where
  /-- The opcode is in no row of the opcode map (rule R92). -/
  | reservedOpcode
  /-- The opcode is an instruction's and a must-be-zero bit is 1 (rule R91). -/
  | mustBeZero
  deriving DecidableEq, Repr

/-- `insn[hi:lo]` as an unsigned number (rule R7). -/
def field (w : Word) (hi lo : Nat) : Nat := w.toNat >>> lo % 2 ^ (hi - lo + 1)

/-- The opcode, `insn[31:26]` in every format (rules R81 to R85). -/
def opcodeOf (w : Word) : Nat := field w 31 26

/-- The four-bit register field whose lowest bit is bit `lo` (rule R90). -/
def regField (w : Word) (lo : Nat) : Reg := Fin.ofNat 16 (field w (lo + 3) lo)

/-- `insn[15:0]` read unsigned: imm16 (rule R87) and tgt16 (rule R89). -/
def zext16 (w : Word) : Nat := field w 15 0

/-- `insn[15:0]` read as a signed 16-bit number: off16 (rule R88; `sext_N` of rule R9). -/
def sext16 (w : Word) : Int :=
  if field w 15 15 = 1 then (field w 15 0 : Int) - 65536 else (field w 15 0 : Int)

/-- One row of the opcode map: the bits the decoder compares, their value, and the instruction
with its fields (rules R86, R94). -/
structure Row where
  mask : Word
  pattern : Word
  build : Word → Instr

/-- `w AND mask(X) = match(X)` (rule R86). -/
def Row.matches (r : Row) (w : Word) : Bool := w &&& r.mask == r.pattern

/-- The rows of formats N, J and B (rule R86). -/
def controlRows : List Row :=
  [ ⟨0xFFFFFFFF, 0x04000000, fun _ => .nop⟩,
    ⟨0xFFFFFFFF, 0x08000000, fun _ => .halt⟩,
    ⟨0xFFFF0000, 0x0C000000, fun w => .jmp (zext16 w)⟩,
    ⟨0xFC030000, 0x10000000, fun w => .beq (regField w 22) (regField w 18) (sext16 w)⟩,
    ⟨0xFC030000, 0x14000000, fun w => .bne (regField w 22) (regField w 18) (sext16 w)⟩,
    ⟨0xFC030000, 0x18000000, fun w => .bltu (regField w 22) (regField w 18) (sext16 w)⟩,
    ⟨0xFC030000, 0x1C000000, fun w => .bgeu (regField w 22) (regField w 18) (sext16 w)⟩ ]

/-- The rows of LDI, MOV and the integer arithmetic family (rule R86). -/
def arithRows : List Row :=
  [ ⟨0xFC3F0000, 0x20000000, fun w => .ldi (regField w 22) (zext16 w)⟩,
    ⟨0xFC03FFFF, 0x24000000, fun w => .mov (regField w 22) (regField w 18)⟩,
    ⟨0xFC03FFFF, 0x40000000, fun w => .sqr (regField w 22) (regField w 18)⟩,
    ⟨0xFC03FFFF, 0x44000000, fun w => .inc (regField w 22) (regField w 18)⟩,
    ⟨0xFC03FFFF, 0x48000000, fun w => .dec (regField w 22) (regField w 18)⟩,
    ⟨0xFC003FFF, 0x4C000000, fun w => .lcm (regField w 22) (regField w 18) (regField w 14)⟩,
    ⟨0xFC003FFF, 0x50000000, fun w => .lfn (regField w 22) (regField w 18) (regField w 14)⟩,
    ⟨0xFC003FFF, 0x54000000, fun w => .mul (regField w 22) (regField w 18) (regField w 14)⟩ ]

/-- The rows of the modular arithmetic family (rule R86). -/
def modularRows : List Row :=
  [ ⟨0xFC0003FF, 0x60000000,
      fun w => .modpow (regField w 22) (regField w 18) (regField w 14) (regField w 10)⟩,
    ⟨0xFC03C3FF, 0x64000000,
      fun w => .modinv (regField w 22) (regField w 18) (regField w 10)⟩,
    ⟨0xFC0003FF, 0x68000000,
      fun w => .modmul (regField w 22) (regField w 18) (regField w 14) (regField w 10)⟩,
    ⟨0xFC0003FF, 0x6C000000,
      fun w => .montmul (regField w 22) (regField w 18) (regField w 14) (regField w 10)⟩ ]

/-- The complete opcode map, in the order of rule R86. -/
def opcodeMap : List Row := controlRows ++ arithRows ++ modularRows

/-- Decoding as a total function of the word (rule R94): the first row that matches gives the
instruction (no two rows match one word, rule R93); a word that none matches is illegal, with a
reserved opcode (rule R92) or a must-be-zero bit set (rule R91). -/
def decodeWord (w : Word) : Except Illegal Instr :=
  match opcodeMap.find? (fun r => r.matches w) with
  | some r => .ok (r.build w)
  | none =>
    if opcodeMap.any (fun r => opcodeOf r.pattern == opcodeOf w) then .error .mustBeZero
    else .error .reservedOpcode

/-! ## The encoder -/

/-- Format R (rule R81). -/
def formatR (op : Nat) (rd ra rb rc : Nat) : Word :=
  BitVec.ofNat 32 (op * 2 ^ 26 + rd * 2 ^ 22 + ra * 2 ^ 18 + rb * 2 ^ 14 + rc * 2 ^ 10)

/-- Format I (rule R82). -/
def formatI (op : Nat) (rd imm16 : Nat) : Word :=
  BitVec.ofNat 32 (op * 2 ^ 26 + rd * 2 ^ 22 + imm16)

/-- Format B (rule R83). -/
def formatB (op : Nat) (ra rb off16 : Nat) : Word :=
  BitVec.ofNat 32 (op * 2 ^ 26 + ra * 2 ^ 22 + rb * 2 ^ 18 + off16)

/-- Format J (rule R84). -/
def formatJ (op : Nat) (tgt16 : Nat) : Word := BitVec.ofNat 32 (op * 2 ^ 26 + tgt16)

/-- Format N (rule R85). -/
def formatN (op : Nat) : Word := BitVec.ofNat 32 (op * 2 ^ 26)

/-- The 16 bits of an unsigned operand (rules R87, R89). -/
def bits16 (v : Nat) : Nat := v % 65536

/-- The 16 bits of a signed offset, two's complement (rule R88). -/
def offBits (v : Int) : Nat := (v % 65536).toNat

/-- The word of an instruction: opcodes from rule R86, fields where rules R81 to R85 place them. -/
def encode : Instr → Word
  | .nop => formatN 0x01
  | .halt => formatN 0x02
  | .jmp tgt => formatJ 0x03 (bits16 tgt)
  | .beq ra rb off => formatB 0x04 ra rb (offBits off)
  | .bne ra rb off => formatB 0x05 ra rb (offBits off)
  | .bltu ra rb off => formatB 0x06 ra rb (offBits off)
  | .bgeu ra rb off => formatB 0x07 ra rb (offBits off)
  | .ldi rd imm => formatI 0x08 rd (bits16 imm)
  | .mov rd ra => formatR 0x09 rd ra 0 0
  | .sqr rd ra => formatR 0x10 rd ra 0 0
  | .inc rd ra => formatR 0x11 rd ra 0 0
  | .dec rd ra => formatR 0x12 rd ra 0 0
  | .lcm rd ra rb => formatR 0x13 rd ra rb 0
  | .lfn rd ra rb => formatR 0x14 rd ra rb 0
  | .mul rd ra rb => formatR 0x15 rd ra rb 0
  | .modpow rd ra rb rc => formatR 0x18 rd ra rb rc
  | .modinv rd ra rc => formatR 0x19 rd ra 0 rc
  | .modmul rd ra rb rc => formatR 0x1A rd ra rb rc
  | .montmul rd ra rb rc => formatR 0x1B rd ra rb rc

/-- The instruction the decoder reads from the `nbits` low bits of `w`, numbered as
spec/opcode_table.json numbers them; every instruction is one 32-bit word (rule R80), and bits
above `nbits` are zero. -/
def decodeTableWord (nbits w : Nat) : Option Instr :=
  match decodeWord (BitVec.ofNat 32 (w % 2 ^ nbits)) with
  | .ok i => some i
  | .error _ => none

end Sys2Proof
end

