-- ==== Sys2Proof/Config.lean ====
section
/-! DEFINITION. What an implementation of the block fixes: the parameters of rule R5, their legal
ranges, and the constants of the host window. The model holds no free value: the spec leaves no
result open (10_state.md rule R39, 30_encoding.md rule R92). -/

namespace Sys2Proof

/-- The parameters of rule R5. `nlimbs` is NLIMBS; W is 32 * NLIMBS (`Params.width`). -/
structure Params where
  /-- NLIMBS, the number of 32-bit limbs of a register. -/
  nlimbs : Nat
  /-- IMEM_WORDS, the number of 32-bit words of instruction memory. -/
  imemWords : Nat
  /-- MMB_BASE, the host bus address of the 32 KiB window. -/
  base : Nat
  deriving DecidableEq, Repr

/-- W, the width in bits of every register: NLIMBS = W / 32 with W a multiple of 32 (rule R5). -/
def Params.width (p : Params) : Nat := 32 * p.nlimbs

/-- The legal values of rule R5: 64 <= W <= 8192 in steps of 32, 1 <= IMEM_WORDS <= 2048, and
MMB_BASE a multiple of 0x8000. -/
def Params.legal (p : Params) : Bool :=
  decide (2 ≤ p.nlimbs ∧ p.nlimbs ≤ 256 ∧ 1 ≤ p.imemWords ∧ p.imemWords ≤ 2048
    ∧ p.base % 0x8000 = 0)

/-- The defaults of rule R5 (W = 512, IMEM_WORDS = 256). DESIGN CHOICE (log 1): MMB_BASE, which is
the platform's choice and has no default, is 0 here. -/
def Params.default : Params := { nlimbs := 16, imemWords := 256, base := 0 }

namespace Config

/-- The constant of the ID register (rule R27). -/
def idValue : Word := 0x4D4D0100

/-- The size in bytes of the host window (rule R50). -/
def windowSize : Nat := 0x8000

/-- Where IMEM starts in the host window (rule R51). -/
def imemOffset : Nat := 0x2000

/-- Where the register window starts in the host window (rule R51). -/
def regOffset : Nat := 0x4000

end Config

end Sys2Proof
end

