-- ==== Sys2Proof/Machine/State.lean ====
section
/-! DEFINITION. The state of the block as plain data (rule R40), what the outside world may do to it
(rules R20, R61, R190), the reasons a step can stop, and the state after hardware reset (R39). -/

namespace Sys2Proof.Machine

/-! ## Instruction memory -/

/-- IMEM as (byte offset of the host window, byte) cells: offsets strictly rising and no zero byte,
because an unlisted byte reads as the reset contents 0 (rules R25, R53, R54; log 3). -/
abbrev Memory := List Host.Cell

/-- The canonical form, for cells that all lie at `lo` or above. -/
def Memory.wfFrom : Nat → Memory → Bool
  | _, [] => true
  | lo, (a, b) :: rest => decide (lo ≤ a) && b != 0#8 && Memory.wfFrom (a + 1) rest

/-- The canonical form: equal memories are equal lists. -/
def Memory.wf (m : Memory) : Bool := Memory.wfFrom 0 m

/-- Every cell lies in the IMEM window of the parameters (rule R51). -/
def Memory.inImem (p : Params) (m : Memory) : Bool :=
  m.all fun c => decide (Config.imemOffset ≤ c.1 ∧ c.1 < Config.imemOffset + 4 * p.imemWords)

/-! ## Fault causes of the block -/

/-- The causes a step can raise (rule R160). These are the BLOCK's faults: taking one gives a next
state (rule R163), unlike the model's own `Fault`. -/
inductive Cause where
  | illegalInstruction
  | fetchRange
  | zeroModulus
  | evenModulus
  | inverseError
  | overflow
  | range
  | zeroDivide
  deriving DecidableEq, Repr

/-! ## The outside world -/

/-- One host access by bus address, size in bytes and, for a write, the word (rule R69). -/
inductive HostAccess where
  | read (addr size : Nat)
  | write (addr size : Nat) (v : Word)
  deriving DecidableEq, Repr

/-- One event of the total order of rule R61, or the platform's hardware reset (rule R190). -/
inductive Event where
  /-- The sequencer takes its next step (rule R140); with BUSY = 0 it has none (rule R20). -/
  | sequencer
  /-- The host performs one access (rule R69). -/
  | access (h : HostAccess)
  /-- The platform resets the block (rules R190, R193). -/
  | hardwareReset
  deriving DecidableEq, Repr

/-- What a host offset of the window names (rule R51). -/
inductive WindowItem where
  | id
  | cfg
  | ctrl
  | status
  | pc
  | cause
  | fpc
  | finsn
  | imemWord (i : Nat)
  | regLimb (r : Reg) (k : Nat)
  | unmapped
  deriving DecidableEq, Repr

/-! ## The state -/

/-- The state. `params` is fixed by the implementation; `env` and `replies` are the model's own
(log 4): the events still to come, oldest first, and the values host reads returned, oldest
first. Everything else is the record of rule R40. -/
structure State where
  /-- The parameters of rule R5; no step changes them. -/
  params : Params
  /-- x[0..15], unsigned integers in [0, 2^W) (rule R21; log 2). -/
  x : Vector Nat 16
  /-- IMEM (rule R25). -/
  imem : Memory
  /-- The program counter, a word index (rule R23). -/
  pc : BitVec 16
  /-- STATUS.BUSY (rule R29). -/
  busy : Bool
  /-- STATUS.DONE (rule R29). -/
  done : Bool
  /-- STATUS.FAULT (rule R29). -/
  fault : Bool
  /-- STATUS.WERR (rule R29). -/
  werr : Bool
  /-- CTRL.IRQ_EN (rule R30). -/
  irqEn : Bool
  /-- CAUSE[7:0] (rule R32). -/
  cause : BitVec 8
  /-- FPC[15:0] (rule R33). -/
  fpc : BitVec 16
  /-- FINSN (rule R34). -/
  finsn : Word
  /-- The events to come, oldest first (rule R61; the model's own). -/
  env : List Event
  /-- What host reads have returned, oldest first (rule R69; the model's own). -/
  replies : List Word
  deriving DecidableEq, Repr

/-! ## How a step can stop -/

/-- A model fault. -/
inductive Fault where
  /-- Raised by `hostAccess` when the next event is a host access at a bus address outside the 32 KiB
  window: it is no access to this block (rule R69: 0 <= a < 0x8000) and the spec says nothing of it.
  Safe: the model stops where the platform goes on. -/
  | outsideWindow (addr : Nat)
  deriving DecidableEq, Repr

/-- A refusal. -/
inductive Refusal where
  /-- Raised by an arm of `exec` whose instruction has no meaning yet; no arm does. Safe. -/
  | notModelled (mnemonic : String)
  deriving DecidableEq, Repr

/-- What a step or a meaning answers. -/
abbrev StepResult := Host.Outcome State Fault Refusal

/-! ## Reset -/

/-- The state after hardware reset of a block with these parameters (rules R39, R190), with no event
to come. -/
def State.resetOf (p : Params) : State :=
  { params := p, x := Vector.replicate 16 0, imem := [], pc := 0,
    busy := false, done := false, fault := false, werr := false, irqEn := false,
    cause := 0, fpc := 0, finsn := 0, env := [], replies := [] }

/-- The state after hardware reset, with the default parameters of rule R5. -/
def State.reset : State := State.resetOf Params.default

end Sys2Proof.Machine
end

