-- ==== Sys2Proof/Machine/Ops.lean ====
section
/-! DEFINITION. The operations every instruction and every host access is made of: IMEM bytes and
words, register access and limbs, retiring an instruction, taking a fault, starting a run and the
two resets. -/

namespace Sys2Proof.Machine

/-! ## IMEM -/

/-- The byte at window offset `a`; an unlisted byte reads 0, the reset contents (rule R25). -/
def Memory.read : Memory → Nat → Byte
  | [], _ => 0#8
  | (k, b) :: rest, a => if k = a then b else Memory.read rest a

/-- Store a byte, keeping the canonical form: a zero byte is not listed. -/
def Memory.write : Memory → Nat → Byte → Memory
  | [], a, b => if b = 0#8 then [] else [(a, b)]
  | (k, c) :: rest, a, b =>
    if k < a then (k, c) :: Memory.write rest a b
    else if k = a then (if b = 0#8 then rest else (a, b) :: rest)
    else if b = 0#8 then (k, c) :: rest
    else (a, b) :: (k, c) :: rest

/-- The word at offset `a`, byte lane j carrying bits 8j+7:8j (rule R53). -/
def Memory.readWord (m : Memory) (a : Nat) : Word :=
  m.read (a + 3) ++ m.read (a + 2) ++ m.read (a + 1) ++ m.read a

/-- Byte lane `j` of a word (rule R53). -/
def byteLane (v : Word) (j : Nat) : Byte := v.extractLsb' (8 * j) 8

/-- Store a word in its four byte lanes (rule R53). -/
def Memory.writeWord (m : Memory) (a : Nat) (v : Word) : Memory :=
  (((m.write a (byteLane v 0)).write (a + 1) (byteLane v 1)).write (a + 2) (byteLane v 2)).write
    (a + 3) (byteLane v 3)

/-- The window offset of IMEM[i] (rule R54). -/
def imemAddr (i : Nat) : Nat := Config.imemOffset + 4 * i

/-- `IMEM[i]` (rules R9, R25). -/
def State.imemWord (s : State) (i : Nat) : Word := s.imem.readWord (imemAddr i)

/-- `IMEM[i] <- v` (rule R54). -/
def State.setImemWord (i : Nat) (v : Word) (s : State) : State :=
  { s with imem := s.imem.writeWord (imemAddr i) v }

/-- The word at pc, or none when pc >= IMEM_WORDS (rules R80, R140). -/
def State.fetch (s : State) : Option Word :=
  if s.pc.toNat < s.params.imemWords then some (s.imemWord s.pc.toNat) else none

/-! ## Registers -/

/-- `x[i]` (rules R9, R22). -/
def State.reg (s : State) (r : Reg) : Nat := s.x[r.val]

/-- `x[i] <- v` (rules R9, R22). -/
def State.setReg (r : Reg) (v : Nat) (s : State) : State := { s with x := s.x.set r.val v }

/-- `fits(v)`: 0 <= v < 2^W (rule R9), said as: nothing stands above bit W - 1. -/
def fits (p : Params) (v : Nat) : Bool := v >>> p.width == 0

/-- Limb k of a value, bits 32k+31:32k (rule R52). -/
def limb (v k : Nat) : Word := BitVec.ofNat 32 (v >>> (32 * k))

/-- The value with bits 32k+31:32k replaced by the word (rule R69). -/
def setLimb (v k : Nat) (w : Word) : Nat :=
  v % 2 ^ (32 * k) + w.toNat * 2 ^ (32 * k) + v >>> (32 * (k + 1)) * 2 ^ (32 * (k + 1))

/-! ## Retiring -/

/-- `pc <- (pc + 1) mod 2^16` (rule R24). -/
def advance (s : State) : State := { s with pc := s.pc + 1 }

/-- Set pc, the effect of a control transfer (rule R24). -/
def jumpTo (target : BitVec 16) (s : State) : State := { s with pc := target }

/-- An instruction with a destination retires: rd is written, then pc advances (rules R12, R140). -/
def retire (rd : Reg) (v : Nat) (s : State) : State := advance (s.setReg rd v)

/-! ## Taking a fault -/

/-- The code a cause leaves in CAUSE[7:0] (rule R160). -/
def Cause.code : Cause → BitVec 8
  | .illegalInstruction => 1
  | .fetchRange => 2
  | .zeroModulus => 3
  | .evenModulus => 4
  | .inverseError => 5
  | .overflow => 6
  | .range => 7
  | .zeroDivide => 8

/-- `Fault(c, insn)` (rule R163): cause, pc and word recorded, FAULT set, BUSY cleared; no register
written and pc unchanged. -/
def takeFault (c : Cause) (insn : Word) (s : State) : State :=
  { s with cause := c.code, fpc := s.pc, finsn := insn, fault := true, busy := false }

/-- `raise Fault(code)` of an executing instruction (rules R9, R162): the recorded word is the
instruction's own, the one word that decodes to it (log 8). -/
def raiseFault (c : Cause) (i : Instr) (s : State) : StepResult := .next (takeFault c (encode i) s)

/-- Write rd and advance when the result fits, else OVERFLOW (rules R100, R107). -/
def retireIfFits (i : Instr) (rd : Reg) (v : Nat) (s : State) : StepResult :=
  if fits s.params v then .next (retire rd v s) else raiseFault .overflow i s

/-! ## Starting, halting, resetting -/

/-- `Start()` (rule R177): refused with WERR while BUSY or FAULT, else DONE is cleared and BUSY
set. -/
def start (s : State) : State :=
  if s.busy || s.fault then { s with werr := true } else { s with done := false, busy := true }

/-- HALT's effect (rule R158): BUSY cleared, DONE set, pc unchanged. -/
def haltRun (s : State) : State := { s with busy := false, done := true }

/-- `SoftReset()` (rule R191): everything but IMEM takes its reset value. -/
def softReset (s : State) : State :=
  { s with x := Vector.replicate 16 0, pc := 0, busy := false, done := false, fault := false,
           werr := false, irqEn := false, cause := 0, fpc := 0, finsn := 0 }

/-- Hardware reset (rule R190): the soft reset's values and IMEM all zero. -/
def hardReset (s : State) : State := { softReset s with imem := [] }

end Sys2Proof.Machine
end

