-- ==== Sys2Proof/Machine/Numeric.lean ====
section
/-! DEFINITION. The integer functions of rule R10 that the modular family needs, as functions that
can be evaluated on W-bit operands. What they compute is normative, how is not (rules R121, R125,
D48; log 9): Sys2Proof/Laws/Numeric.lean proves that they are the values rule R10 defines. -/

namespace Sys2Proof.Machine

/-- `lcm(a, b) = (a * b) div gcd(a, b)` (rule R10). -/
def lcmOf (a b : Nat) : Nat := a * b / Nat.gcd a b

/-- `L(x, n) = (x - 1) div n`, for x >= 1 and n >= 1 (rule R11). -/
def lfnOf (x n : Nat) : Nat := (x - 1) / n

/-- Square and multiply on the low `n` bits of e: acc * b^e mod m when e < 2^n. -/
def powModLoop : Nat → Nat → Nat → Nat → Nat → Nat
  | 0, _, _, _, acc => acc
  | n + 1, b, e, m, acc =>
    powModLoop n (b * b % m) (e / 2) m (if e % 2 = 1 then acc * b % m else acc)

/-- `(b ^ e) mod m` for m >= 1, with b ^ 0 = 1 (rules R10, R121). -/
def powMod (b e m : Nat) : Nat := powModLoop (Nat.log2 e + 1) (b % m) e m (1 % m)

/-- The extended Euclidean loop of rule R126 with its step count bounded by `n`: the pair (r0, t0)
when the loop ends. -/
def euclidLoop : Nat → Nat → Nat → Int → Int → Nat × Int
  | 0, r0, _, t0, _ => (r0, t0)
  | n + 1, r0, r1, t0, t1 =>
    if r1 = 0 then (r0, t0)
    else euclidLoop n r1 (r0 % r1) t1 (t0 - (r0 / r1 : Nat) * t1)

/-- The whole loop of rule R126 on (a mod m, m); two remainders halve, so 2 log2 m + 2 steps
suffice. -/
def euclid (a m : Nat) : Nat × Int := euclidLoop (2 * Nat.log2 m + 2) m (a % m) 0 1

/-- `inv(a, m)` for m >= 1 and gcd(a, m) = 1: the x in [0, m) with (a * x) mod m = 1 mod m
(rule R10), by rule R126's `t0 mod m`. -/
def modInv (a m : Nat) : Nat := ((euclid a m).2 % m).toNat

/-- The Montgomery product of odd m with R = 2^W (rule R131). -/
def montProduct (w a b m : Nat) : Nat := a * b * modInv (2 ^ w % m) m % m

end Sys2Proof.Machine
end

