-- ==== Sys2Proof/Machine/Operands.lean ====
section
/-! DEFINITION. Operand values and control-transfer targets (30_encoding.md rules R87 to R90,
42_move_control.md rule R141). A register operand is read whole by `State.reg`. -/

namespace Sys2Proof.Machine

/-- The value of LDI's immediate: the 16-bit field zero-extended (rule R87). -/
def immValue (imm : Nat) : Nat := bits16 imm

/-- `(pc + sext_16(off16)) mod 2^16`, with pc the branch's own index (rules R88, R141). -/
def branchTarget (pc : BitVec 16) (off : Int) : BitVec 16 := BitVec.ofInt 16 (pc.toNat + off)

/-- `zext_16(tgt16)`, an absolute index (rules R89, R141). -/
def jumpTarget (tgt : Nat) : BitVec 16 := BitVec.ofNat 16 tgt

/-- A conditional branch: the target when the condition holds, else the next index (rules R146 to
R149). -/
def branchIf (cond : Bool) (off : Int) (s : State) : State :=
  if cond then jumpTo (branchTarget s.pc off) s else advance s

end Sys2Proof.Machine
end

