-- ==== Sys2Proof/Machine/Arith.lean ====
section
/-! DEFINITION. The integer arithmetic family, 40_arith.md rules R100 to R107: sources are read
first, the exact result is computed, the checks run in the order each rule lists them. -/

namespace Sys2Proof.Machine

/-- SQR (rule R101). -/
def execSqr (rd ra : Reg) (s : State) : StepResult :=
  retireIfFits (.sqr rd ra) rd (s.reg ra * s.reg ra) s

/-- INC (rule R102). -/
def execInc (rd ra : Reg) (s : State) : StepResult :=
  retireIfFits (.inc rd ra) rd (s.reg ra + 1) s

/-- DEC (rule R103). -/
def execDec (rd ra : Reg) (s : State) : StepResult :=
  if s.reg ra = 0 then raiseFault .range (.dec rd ra) s
  else .next (retire rd (s.reg ra - 1) s)

/-- LCM (rule R104): ZERO_DIVIDE before OVERFLOW; only the final value is checked. -/
def execLcm (rd ra rb : Reg) (s : State) : StepResult :=
  if Nat.gcd (s.reg ra) (s.reg rb) = 0 then raiseFault .zeroDivide (.lcm rd ra rb) s
  else retireIfFits (.lcm rd ra rb) rd (lcmOf (s.reg ra) (s.reg rb)) s

/-- LFN (rule R105): ra holds x and rb holds n; ZERO_DIVIDE before RANGE; no congruence check. -/
def execLfn (rd ra rb : Reg) (s : State) : StepResult :=
  if s.reg rb = 0 then raiseFault .zeroDivide (.lfn rd ra rb) s
  else if s.reg ra = 0 then raiseFault .range (.lfn rd ra rb) s
  else .next (retire rd (lfnOf (s.reg ra) (s.reg rb)) s)

/-- MUL (rule R106): the full product or OVERFLOW. -/
def execMul (rd ra rb : Reg) (s : State) : StepResult :=
  retireIfFits (.mul rd ra rb) rd (s.reg ra * s.reg rb) s

end Sys2Proof.Machine
end

