-- ==== Sys2Proof/Machine/Control.lean ====
section
/-! DEFINITION. Data movement and control transfer, 42_move_control.md rules R141 to R158. None of
these can fault once decoded (rule R161). -/

namespace Sys2Proof.Machine

/-- NOP (rule R142). -/
def execNop (s : State) : StepResult := .next (advance s)

/-- HALT (rule R158). -/
def execHalt (s : State) : StepResult := .next (haltRun s)

/-- JMP (rule R145); a target past IMEM is not checked here (rule R141). -/
def execJmp (tgt : Nat) (s : State) : StepResult := .next (jumpTo (jumpTarget tgt) s)

/-- BEQ (rule R146). -/
def execBeq (ra rb : Reg) (off : Int) (s : State) : StepResult :=
  .next (branchIf (decide (s.reg ra = s.reg rb)) off s)

/-- BNE (rule R147). -/
def execBne (ra rb : Reg) (off : Int) (s : State) : StepResult :=
  .next (branchIf (decide (s.reg ra ≠ s.reg rb)) off s)

/-- BLTU (rule R148). -/
def execBltu (ra rb : Reg) (off : Int) (s : State) : StepResult :=
  .next (branchIf (decide (s.reg ra < s.reg rb)) off s)

/-- BGEU (rule R149). -/
def execBgeu (ra rb : Reg) (off : Int) (s : State) : StepResult :=
  .next (branchIf (decide (s.reg ra ≥ s.reg rb)) off s)

/-- LDI (rule R143). -/
def execLdi (rd : Reg) (imm : Nat) (s : State) : StepResult :=
  .next (retire rd (immValue imm) s)

/-- MOV (rule R144). -/
def execMov (rd ra : Reg) (s : State) : StepResult := .next (retire rd (s.reg ra) s)

end Sys2Proof.Machine
end

