-- ==== Sys2Proof/Machine/Modular.lean ====
section
/-! DEFINITION. The modular family, 41_modular.md rules R120 to R131: the modulus is x[rc], a zero
modulus is refused before any other check, and no operand need be reduced (rule R120). -/

namespace Sys2Proof.Machine

/-- MODPOW (rule R121): every modulus m >= 1, odd or even. -/
def execModpow (rd ra rb rc : Reg) (s : State) : StepResult :=
  if s.reg rc = 0 then raiseFault .zeroModulus (.modpow rd ra rb rc) s
  else .next (retire rd (powMod (s.reg ra) (s.reg rb) (s.reg rc)) s)

/-- MODINV (rule R125): ZERO_MODULUS before INVERSE_ERROR. -/
def execModinv (rd ra rc : Reg) (s : State) : StepResult :=
  if s.reg rc = 0 then raiseFault .zeroModulus (.modinv rd ra rc) s
  else if Nat.gcd (s.reg ra) (s.reg rc) ≠ 1 then raiseFault .inverseError (.modinv rd ra rc) s
  else .next (retire rd (modInv (s.reg ra) (s.reg rc)) s)

/-- MODMUL (rule R128): every modulus m >= 1, odd or even. -/
def execModmul (rd ra rb rc : Reg) (s : State) : StepResult :=
  if s.reg rc = 0 then raiseFault .zeroModulus (.modmul rd ra rb rc) s
  else .next (retire rd (s.reg ra * s.reg rb % s.reg rc) s)

/-- MONTMUL (rule R131): ZERO_MODULUS before EVEN_MODULUS; R = 2^W. -/
def execMontmul (rd ra rb rc : Reg) (s : State) : StepResult :=
  if s.reg rc = 0 then raiseFault .zeroModulus (.montmul rd ra rb rc) s
  else if s.reg rc % 2 = 0 then raiseFault .evenModulus (.montmul rd ra rb rc) s
  else .next (retire rd (montProduct s.params.width (s.reg ra) (s.reg rb) (s.reg rc)) s)

end Sys2Proof.Machine
end

