-- ==== Sys2Proof/Machine/Flags.lean ====
section
/-! DEFINITION. The block has no condition codes (rule R36); its only flags are those of STATUS and
CTRL. Here stand the words software reads them in, the write-1-to-clear rule, and the IRQ
output. -/

namespace Sys2Proof.Machine

/-- The word of the STATUS register (rules R29, R69). -/
def State.statusWord (s : State) : Word :=
  (BitVec.ofBool s.werr ++ BitVec.ofBool s.fault ++ BitVec.ofBool s.done
    ++ BitVec.ofBool s.busy).zeroExtend 32

/-- The word of the CTRL register: START and SRST read 0 (rule R30). -/
def State.ctrlWord (s : State) : Word := (BitVec.ofBool s.irqEn).zeroExtend 32 <<< 2

/-- The word of the CFG register, `IMEM_WORDS[15:0] ++ NLIMBS[15:0]` (rule R28). -/
def Params.cfgWord (p : Params) : Word :=
  BitVec.ofNat 16 p.imemWords ++ BitVec.ofNat 16 p.nlimbs

/-- A write of STATUS clears the bits written 1, of bits 1 to 3 only (rules R29, R69). -/
def clearStatus (v : Word) (s : State) : State :=
  { s with done := s.done && !v.getLsbD 1,
           fault := s.fault && !v.getLsbD 2,
           werr := s.werr && !v.getLsbD 3 }

/-- The IRQ output, a function of the state (rules R35, R168). -/
def State.irq (s : State) : Bool := s.irqEn && (s.done || s.fault)

end Sys2Proof.Machine
end

