-- ==== Sys2Proof/Machine/HostWindow.lean ====
section
/-! DEFINITION. The host interface: the window map of rule R51 and the host accesses of rule R69. -/

namespace Sys2Proof.Machine

/-- The window offset of a bus address, if the address lies in the window (rules R50, R69). -/
def windowOffset (p : Params) (addr : Nat) : Option Nat :=
  if p.base ≤ addr ∧ addr < p.base + Config.windowSize then some (addr - p.base) else none

/-- What an aligned offset names (rules R26, R51, R52, R54): register limb j of the window is limb
j mod NLIMBS of register j div NLIMBS. -/
def windowItem (p : Params) (a : Nat) : WindowItem :=
  if a = 0x000 then .id
  else if a = 0x004 then .cfg
  else if a = 0x008 then .ctrl
  else if a = 0x00C then .status
  else if a = 0x010 then .pc
  else if a = 0x014 then .cause
  else if a = 0x018 then .fpc
  else if a = 0x01C then .finsn
  else if Config.imemOffset ≤ a ∧ a < Config.imemOffset + 4 * p.imemWords then
    .imemWord ((a - Config.imemOffset) / 4)
  else if Config.regOffset ≤ a ∧ a < Config.regOffset + 64 * p.nlimbs then
    .regLimb (Fin.ofNat 16 ((a - Config.regOffset) / 4 / p.nlimbs))
      ((a - Config.regOffset) / 4 % p.nlimbs)
  else .unmapped

/-- The only supported access is a naturally aligned 32-bit one (rule R55). -/
def supported (a size : Nat) : Bool := decide (size = 4 ∧ a % 4 = 0)

/-- The word a supported read of an item returns; no read has a side effect (rules R57, R69). -/
def readItem (s : State) : WindowItem → Word
  | .id => Config.idValue
  | .cfg => Params.cfgWord s.params
  | .ctrl => s.ctrlWord
  | .status => s.statusWord
  | .pc => s.pc.zeroExtend 32
  | .cause => s.cause.zeroExtend 32
  | .fpc => s.fpc.zeroExtend 32
  | .finsn => s.finsn
  | .imemWord i => s.imemWord i
  | .regLimb r k => limb (s.reg r) k
  | .unmapped => 0

/-- A write of CTRL (rules R30, R58, R69): SRST takes precedence; else IRQ_EN is stored and START
acted on. -/
def writeCtrl (v : Word) (s : State) : State :=
  if v.getLsbD 1 then softReset s
  else if v.getLsbD 0 then start { s with irqEn := v.getLsbD 2 }
  else { s with irqEn := v.getLsbD 2 }

/-- A write that a run in progress rejects: dropped, and WERR set (rule R58). -/
def whileIdle (f : State → State) (s : State) : State :=
  if s.busy then { s with werr := true } else f s

/-- The effect of a supported write of an item (rule R69). -/
def writeItem (v : Word) (s : State) : WindowItem → State
  | .ctrl => writeCtrl v s
  | .status => clearStatus v s
  | .pc => whileIdle (jumpTo (v.extractLsb' 0 16)) s
  | .imemWord i => whileIdle (State.setImemWord i v) s
  | .regLimb r k => whileIdle (fun s => s.setReg r (setLimb (s.reg r) k v)) s
  | .id | .cfg | .cause | .fpc | .finsn | .unmapped => s

/-- `MemRead(a, n)` (rule R69): the word returned and the state after. -/
def memRead (a size : Nat) (s : State) : Word × State :=
  if supported a size then (readItem s (windowItem s.params a), s)
  else (0, { s with werr := true })

/-- `MemWrite(a, n, v)` (rule R69). -/
def memWrite (a size : Nat) (v : Word) (s : State) : State :=
  if supported a size then writeItem v s (windowItem s.params a) else { s with werr := true }

/-- Keep what a read returned for the host, the latest last (log 4). -/
def answerRead (r : Word × State) : State := { r.2 with replies := r.2.replies ++ [r.1] }

/-- One host access by bus address (rules R61, R69); an address outside the window is no access to
this block. -/
def hostAccess (h : HostAccess) (s : State) : StepResult :=
  match h with
  | .read addr size =>
    match windowOffset s.params addr with
    | some a => .next (answerRead (memRead a size s))
    | none => .fault (.outsideWindow addr)
  | .write addr size v =>
    match windowOffset s.params addr with
    | some a => .next (memWrite a size v s)
    | none => .fault (.outsideWindow addr)

end Sys2Proof.Machine
end

