-- ==== Sys2Proof/Machine/Sequencer.lean ====
section
/-! DEFINITION. The sequencer's step (rule R140) and the events of the total order of rule R61. -/

namespace Sys2Proof.Machine

/-- `SeqStep()` of a running sequencer (rules R140, R165): FETCH_RANGE, then ILLEGAL_INSTRUCTION,
then the instruction's own rule. -/
def seqStep (s : State) : StepResult :=
  match s.fetch with
  | none => .next (takeFault .fetchRange 0 s)
  | some insn =>
    match decodeWord insn with
    | .error _ => .next (takeFault .illegalInstruction insn s)
    | .ok i => exec i s

/-- The sequencer's turn: while BUSY = 0 it has no step and every state survives (rules R20, R140,
R176; log 5). -/
def seqTurn (s : State) : StepResult := if s.busy then seqStep s else .next s

/-- One event (rules R61, R190). -/
def takeEvent (e : Event) (s : State) : StepResult :=
  match e with
  | .sequencer => seqTurn s
  | .access h => hostAccess h s
  | .hardwareReset => .next (hardReset s)

/-- The next event of the total order: the environment's next one, or, once it has none, the
sequencer's turn (rules R61, R205; log 4). -/
def nextEvent (s : State) : StepResult :=
  match s.env with
  | [] => seqTurn s
  | e :: rest => takeEvent e { s with env := rest }

/-- The state in which the sequencer fetches the word next: it is running, no event is before it,
and IMEM holds the word at pc, which is moved into IMEM if it is not there (log 7). -/
def placeWord (w : Word) (s : State) : State :=
  let i := if s.pc.toNat < s.params.imemWords then s.pc.toNat else 0
  { s.setImemWord i w with
      pc := BitVec.ofNat 16 i, busy := true, done := false, fault := false, env := [] }

end Sys2Proof.Machine
end

