-- ==== Sys2Proof/Machine/Step.lean ====
section
/-! DEFINITION. One step of the machine, and how a word comes to be the next instruction. -/

namespace Sys2Proof.Machine

/-- One step: the next event of the total order of rule R61. -/
def step (s : State) : Host.Outcome State Fault Refusal := nextEvent s

/-- `s` with the `nbits` low bits of `w`, an instruction numbered as spec/opcode_table.json numbers
it, stored where the next step fetches (log 7). -/
def State.withFetchWord (s : State) (nbits w : Nat) : State :=
  placeWord (BitVec.ofNat 32 (w % 2 ^ nbits)) s

end Sys2Proof.Machine
end

