-- ==== Sys2Proof/Machine/Assembler.lean ====
section
/-! DEFINITION. The assembler of rules R95 and R96: the text of an instruction, the
pseudo-instructions, labels and `.word`. A source line is data here, not characters (log 22). -/

namespace Sys2Proof.Machine

/-! ## The text of an instruction, rule R95 -/

def regText (r : Reg) : String := "r" ++ toString r.val

/-- A branch offset, written `+n` or `-n`. -/
def offText (off : Int) : String :=
  if off < 0 then "-" ++ toString off.natAbs else "+" ++ toString off.natAbs

/-- The mnemonic in lower case and the operands, destination first. -/
def asmText (name : String) (operands : List String) : String :=
  match operands with
  | [] => name
  | _ :: _ => name ++ " " ++ ", ".intercalate operands

/-- One instruction as a line of assembly. -/
def instrText : Instr → String
  | .nop => asmText "nop" []
  | .halt => asmText "halt" []
  | .jmp tgt => asmText "jmp" [toString tgt]
  | .beq ra rb off => asmText "beq" [regText ra, regText rb, offText off]
  | .bne ra rb off => asmText "bne" [regText ra, regText rb, offText off]
  | .bltu ra rb off => asmText "bltu" [regText ra, regText rb, offText off]
  | .bgeu ra rb off => asmText "bgeu" [regText ra, regText rb, offText off]
  | .ldi rd imm => asmText "ldi" [regText rd, toString imm]
  | .mov rd ra => asmText "mov" [regText rd, regText ra]
  | .sqr rd ra => asmText "sqr" [regText rd, regText ra]
  | .inc rd ra => asmText "inc" [regText rd, regText ra]
  | .dec rd ra => asmText "dec" [regText rd, regText ra]
  | .lcm rd ra rb => asmText "lcm" [regText rd, regText ra, regText rb]
  | .lfn rd ra rb => asmText "lfn" [regText rd, regText ra, regText rb]
  | .mul rd ra rb => asmText "mul" [regText rd, regText ra, regText rb]
  | .modpow rd ra rb rc => asmText "modpow" [regText rd, regText ra, regText rb, regText rc]
  | .modinv rd ra rc => asmText "modinv" [regText rd, regText ra, regText rc]
  | .modmul rd ra rb rc => asmText "modmul" [regText rd, regText ra, regText rb, regText rc]
  | .montmul rd ra rb rc => asmText "montmul" [regText rd, regText ra, regText rb, regText rc]

/-! ## The pseudo-instructions, rule R96 -/

/-- `li rd, imm` -/
def pseudoLi (rd : Reg) (imm : Nat) : Instr := .ldi rd imm

/-- `clr rd` -/
def pseudoClr (rd : Reg) : Instr := .ldi rd 0

/-- `b T` -/
def pseudoB (tgt : Nat) : Instr := .jmp tgt

/-- `bgtu ra, rb, T` -/
def pseudoBgtu (ra rb : Reg) (off : Int) : Instr := .bltu rb ra off

/-- `bleu ra, rb, T` -/
def pseudoBleu (ra rb : Reg) (off : Int) : Instr := .bgeu rb ra off

/-! ## Labels and `.word`, rule R95 -/

/-- One line of a source; a label is known by a number, since only which label it is matters. -/
inductive AsmLine where
  /-- `name:` -/
  | label (name : Nat)
  /-- An instruction whose target, if any, is a number. -/
  | instr (i : Instr)
  /-- `jmp name` -/
  | jmpTo (name : Nat)
  /-- A branch to a label: the branch for a given offset, and the label. -/
  | beqTo (ra rb : Reg) (name : Nat)
  | bneTo (ra rb : Reg) (name : Nat)
  | bltuTo (ra rb : Reg) (name : Nat)
  | bgeuTo (ra rb : Reg) (name : Nat)
  /-- `.word v` -/
  | word (v : Word)
  deriving DecidableEq, Repr

/-- How many IMEM words a line takes. -/
def AsmLine.size : AsmLine → Nat
  | .label _ => 0
  | .instr _ | .jmpTo _ | .word _ => 1
  | .beqTo _ _ _ | .bneTo _ _ _ | .bltuTo _ _ _ | .bgeuTo _ _ _ => 1

/-- The index a label stands for: that of the next instruction (rule R95), counted from `pc`. DESIGN
CHOICE (log 22): it is the count of words before the label, so a `.word` that comes next counts as
an instruction and a label with no line after it stands for the index past the last word; and of a
label defined twice the first place counts. -/
def labelIndex (name : Nat) : Nat → List AsmLine → Option Nat
  | _, [] => none
  | pc, l :: rest => if l = .label name then some pc else labelIndex name (pc + l.size) rest

/-- The word of an instruction, refused when an operand is out of range (rule R95). -/
def asmWord (i : Instr) : Option Word := if i.wellFormed then some (encode i) else none

/-- The words of one line at index `pc` of the source `src`: off16 = T - pc for a label T. -/
def asmLine (src : List AsmLine) (pc : Nat) (l : AsmLine) : Option (List Word) :=
  let branch (f : Int → Instr) (name : Nat) : Option (List Word) := do
    let t ← labelIndex name 0 src
    let w ← asmWord (f ((t : Int) - pc))
    pure [w]
  match l with
  | .label _ => some []
  | .word v => some [v]
  | .instr i => (asmWord i).map fun w => [w]
  | .jmpTo name => do
    let t ← labelIndex name 0 src
    let w ← asmWord (.jmp t)
    pure [w]
  | .beqTo ra rb name => branch (.beq ra rb) name
  | .bneTo ra rb name => branch (.bne ra rb) name
  | .bltuTo ra rb name => branch (.bltu ra rb) name
  | .bgeuTo ra rb name => branch (.bgeu ra rb) name

/-- The words of the lines from index `pc` on. -/
def asmFrom (src : List AsmLine) : Nat → List AsmLine → Option (List Word)
  | _, [] => some []
  | pc, l :: rest => do
    let ws ← asmLine src pc l
    let more ← asmFrom src (pc + l.size) rest
    pure (ws ++ more)

/-- The program of a source, to be placed in IMEM from index 0; none when the assembler refuses it:
an operand out of range, or a label that no line defines. -/
def assemble (src : List AsmLine) : Option (List Word) := asmFrom src 0 src

end Sys2Proof.Machine
end

