-- ==== Sys2Proof/Machine/HostProtocol.lean ====
section
/-! DEFINITION. What the host does to bring a run up and to return from a fault, as the events it
performs (rules R166 and R194). -/

namespace Sys2Proof.Machine

/-- A supported host write of a word at a window offset. -/
def hostWrite (p : Params) (a : Nat) (v : Word) : Event := .access (.write (p.base + a) 4 v)

/-- Writes of consecutive words from a window offset on. -/
def hostWriteWords (p : Params) : Nat → List Word → List Event
  | _, [] => []
  | a, v :: rest => hostWrite p a v :: hostWriteWords p (a + 4) rest

/-- Step 3 of rule R194: the program into IMEM[0 .. len-1] (rule R54). -/
def loadProgram (p : Params) (program : List Word) : List Event :=
  hostWriteWords p Config.imemOffset program

/-- Step 4 of rule R194: an operand, all NLIMBS limbs of it, lowest first (rule R52). -/
def loadOperand (p : Params) (r : Reg) (v : Nat) : List Event :=
  hostWriteWords p (Config.regOffset + 4 * (r.val * p.nlimbs)) ((List.range p.nlimbs).map (limb v))

/-- Step 5 of rule R194: the entry index (rule R31) where the host writes PC, or no write. DESIGN
CHOICE (log 23): `none` and `some 0` are both allowed for a program entered at 0. -/
def setEntry (p : Params) (entry : Option (BitVec 16)) : List Event :=
  entry.toList.map fun e => hostWrite p 0x010 (e.zeroExtend 32)

/-- The first half of step 6 of rule R194, which the rule leaves to the host: WERR cleared by a write
of 1 to its STATUS bit, or no write. -/
def clearErrors (p : Params) (clear : Bool) : List Event :=
  if clear then [hostWrite p 0x00C 8] else []

/-- Step 7 of rule R194 and the other half of step 6: START, with IRQ_EN as wanted (rules R30, R177).
DESIGN CHOICE (log 23): one write of CTRL carries both. -/
def startRun (p : Params) (irq : Bool) : List Event :=
  [hostWrite p 0x008 (if irq then 5 else 1)]

/-- Steps 3 to 7 of rule R194 on an idle block. The rule leaves it to the host whether PC is written
for an entry index of 0 and whether WERR is cleared; here that is the caller's to say, by `entry` and
`clear`. DESIGN CHOICE (log 23): each word is written once, the lowest first, IRQ_EN with START, and
the optional reads of step 2 are left out. -/
def bringUp (p : Params) (program : List Word) (operands : List (Reg × Nat))
    (entry : Option (BitVec 16)) (clear irq : Bool) : List Event :=
  loadProgram p program ++ operands.flatMap (fun q => loadOperand p q.1 q.2) ++ setEntry p entry ++
    clearErrors p clear ++ startRun p irq

/-- Steps 2 and 4 of rule R166: FAULT cleared, and START with IRQ_EN as it was. -/
def restartAfterFault (p : Params) (irq : Bool) : List Event :=
  hostWrite p 0x00C 4 :: startRun p irq

end Sys2Proof.Machine
end

