-- ==== Sys2Proof/Machine/Units.lean ====
section
/-! DEFINITION. The reference algorithms of the functional units: the CIOS Montgomery multiplier
(rule R132), the exponentiation unit (rule R122) and the inverse engine (rule R126). They are
informative: no instruction's meaning calls them, and what they are worth is said by the
statements that compare them with the normative results. They hold no state between instructions
(rule R37). -/

namespace Sys2Proof.Machine

/-! ## The Montgomery multiplier, rule R132 -/

/-- `m' = (-inv(m mod 2^32, 2^32)) mod 2^32`, for m odd. -/
def negInv32 (m : Nat) : Nat := (2 ^ 32 - modInv (m % 2 ^ 32) (2 ^ 32)) % 2 ^ 32

/-- One turn of the loop: limb i of b is multiplied in and the low limb of T cancelled. -/
def ciosTurn (a b m m' i t : Nat) : Nat :=
  let t1 := t + a * (limb b i).toNat
  let q := t1 % 2 ^ 32 * m' % 2 ^ 32
  (t1 + q * m) / 2 ^ 32

/-- T after the first `n` turns. -/
def ciosLoop (a b m m' : Nat) : Nat → Nat
  | 0 => 0
  | n + 1 => ciosTurn a b m m' n (ciosLoop a b m m' n)

/-- The unit's result for NLIMBS = n: inputs reduced, n turns, one conditional subtraction. -/
def ciosProduct (n a b m : Nat) : Nat :=
  let t := ciosLoop (a % m) (b % m) m (negInv32 m) n
  if m ≤ t then t - m else t

/-! ## The exponentiation unit, rule R122 -/

/-- The loop over bits n - 1 down to 0 of e, on Montgomery forms. -/
def ladder (w e m bm : Nat) : Nat → Nat → Nat
  | 0, acc => acc
  | n + 1, acc =>
    let sq := montProduct w acc acc m
    ladder w e m bm n (if e.testBit n then montProduct w sq bm m else sq)

/-- The unit's result for odd m: Montgomery exponentiation for m >= 3, 0 for m = 1. -/
def ladderPow (w b e m : Nat) : Nat :=
  if m = 1 then 0
  else
    let r2 := 2 ^ (2 * w) % m
    montProduct w (ladder w e m (montProduct w (b % m) r2 m) w (montProduct w 1 r2 m)) 1 m

/-! ## The inverse engine, rule R126 -/

/-- The engine's result: none is INVERSE_ERROR, else `t0 mod m`. -/
def inverseEngine (a m : Nat) : Option Nat :=
  if (euclid a m).1 ≠ 1 then none else some ((euclid a m).2 % m).toNat

end Sys2Proof.Machine
end

