-- ==== Sys2Proof/Safety.lean ====
section
/-! DEFINITION. What a safe state is: the facts the spec states of every reachable state; and when the
next event is the sequencer's. -/

namespace Sys2Proof.Machine

/-- The invariant of the block. -/
structure State.Inv (s : State) : Prop where
  /-- The parameters are legal (rule R5). -/
  params_legal : s.params.legal = true
  /-- Every register value is in [0, 2^W) (rules R8, R21). -/
  regs_fit : ∀ r : Reg, s.reg r < 2 ^ s.params.width
  /-- IMEM is in canonical form (log 3). -/
  imem_wf : s.imem.wf = true
  /-- IMEM holds no byte outside its IMEM_WORDS words (rule R25). -/
  imem_in : s.imem.inImem s.params = true
  /-- DONE and FAULT are never both 1 (rule R29). -/
  done_fault : ¬ (s.done = true ∧ s.fault = true)
  /-- BUSY = 1 implies DONE = 0 and FAULT = 0 (rule R29). -/
  busy_idle : s.busy = true → s.done = false ∧ s.fault = false
  /-- CAUSE holds a code of rule R160 (93_implementation_defined.md I17). -/
  cause_code : s.cause.toNat ≤ 8

/-- The next event of the total order of rule R61 is the sequencer's turn, and `rest` are the events
listed after it: it is the first one listed, or none is listed (log 4). -/
def SequencerNext (s : State) (rest : List Event) : Prop :=
  (s.env = [] ∧ rest = []) ∨ s.env = .sequencer :: rest

end Sys2Proof.Machine
end

