-- ==== Sys2Proof/Certificates/Slice0/Obligations.lean ====
section
/-! DEFINITION. What is claimed of the block, one Prop for each claim, stated over every legal value of
the parameters. A fault of the BLOCK is written out as the state it leaves (rule R163). -/

open Sys2Proof Sys2Proof.Machine

/-! ## Reset and the invariant -/

/-- Hardware reset leaves a state that meets the invariant, for every legal block (rule R39). -/
def Obligations.ResetMeetsTheInvariant : Prop :=
  (∀ p : Params, p.legal = true → (State.resetOf p).Inv) ∧ State.reset.Inv

/-- Every step, by the sequencer, the host or a reset, keeps the invariant: registers stay in
[0, 2^W) (R21), IMEM stays canonical and inside its window (R25), DONE and FAULT are never both 1 and
BUSY excludes both (R29), CAUSE stays a code of R160. -/
def Obligations.StepKeepsTheInvariant : Prop :=
  ∀ s t : State, s.Inv → step s = .next t → t.Inv

/-- No step changes the parameters (R5, R28), each consumes one event, and each adds at most one reply
to the host's (the event list and the replies are the model's own, log 4). -/
def Obligations.StepKeepsParamsAndConsumesOneEvent : Prop :=
  ∀ s t : State, step s = .next t →
    t.params = s.params ∧ t.env = s.env.tail ∧
      (t.replies = s.replies ∨ ∃ v : Word, t.replies = s.replies ++ [v])

/-- A step stops only on a host access at a bus address outside the window (R69; log 6): neither the
sequencer nor an access inside the window ever stops the model (R12). -/
def Obligations.StepStopsOnlyOutsideTheWindow : Prop :=
  ∀ s : State, (∃ t, step s = .next t) ∨
    ∃ (addr size : Nat) (v : Word) (rest : List Event),
      (s.env = .access (.read addr size) :: rest ∨ s.env = .access (.write addr size v) :: rest) ∧
      (addr < s.params.base ∨ s.params.base + 0x8000 ≤ addr) ∧
      step s = .fault (.outsideWindow addr)

/-- Rule R190: what hardware reset leaves, whatever came before. -/
def Obligations.HardwareResetClearsTheBlock : Prop :=
  ∀ (s : State) (rest : List Event), s.env = .hardwareReset :: rest →
    ∃ t, step s = .next t ∧ (∀ r, t.reg r = 0) ∧ (∀ i, t.imemWord i = 0) ∧ t.pc = 0 ∧
      t.busy = false ∧ t.done = false ∧ t.fault = false ∧ t.werr = false ∧ t.irqEn = false ∧
      t.cause = 0 ∧ t.fpc = 0 ∧ t.finsn = 0 ∧ t.irq = false ∧
      readItem t .id = 0x4D4D0100 ∧ readItem t .cfg = readItem s .cfg ∧ t.params = s.params

/-- Rules R25 and R192: after reset nothing runs until a START is accepted, and a run of the blank
IMEM faults at index 0 with ILLEGAL_INSTRUCTION and the word 0. -/
def Obligations.FirstRunOfBlankImemIsIllegal : Prop :=
  ∀ p : Params, p.legal = true →
    core.run 2 { State.resetOf p with env := [.access (.write (p.base + 0x008) 4 1)] } =
      .next { State.resetOf p with cause := 1, fault := true }

/-! ## Encoding -/

/-- Decoding the word of a well-formed instruction gives the instruction back, every operand at every
value its field holds (R81 to R94). -/
def Obligations.DecodeOfEncodeIsTheInstruction : Prop :=
  ∀ i : Instr, i.wellFormed = true → decodeWord (encode i) = .ok i

/-- A word that decodes is the word of the instruction it decodes to, so no two words are one
instruction, and the instruction is well formed (R91, R92, R94). -/
def Obligations.EncodeOfDecodeIsTheWord : Prop :=
  ∀ (w : Word) (i : Instr), decodeWord w = .ok i → i.wellFormed = true ∧ encode i = w

/-- No two rows of the opcode map match the same word; their opcodes differ (what the spec infers in
rule R93 from R86 and R92). -/
def Obligations.NoTwoRowsMatchOneWord : Prop :=
  opcodeMap.length = 19 ∧
  (∀ (j k : Nat) (hj : j < opcodeMap.length) (hk : k < opcodeMap.length), j ≠ k →
    opcodeOf opcodeMap[j].pattern ≠ opcodeOf opcodeMap[k].pattern) ∧
  ∀ (w : Word) (j k : Nat) (hj : j < opcodeMap.length) (hk : k < opcodeMap.length),
    w &&& opcodeMap[j].mask = opcodeMap[j].pattern →
    w &&& opcodeMap[k].mask = opcodeMap[k].pattern → j = k

/-- Rule R92: every word the sequencer meets is one instruction and runs as it, or raises
ILLEGAL_INSTRUCTION; a word with a reserved opcode, the zero word among them, does the latter. -/
def Obligations.EveryWordIsOneInstructionOrIllegal : Prop :=
  ∀ (s : State) (rest : List Event) (w : Word), SequencerNext s rest → s.busy = true →
    s.pc.toNat < s.params.imemWords → s.imemWord s.pc.toNat = w →
    ((∃ i, i.wellFormed = true ∧ encode i = w ∧
        (∀ j : Instr, j.wellFormed = true → encode j = w → j = i) ∧
        step s = exec i { s with env := rest }) ∨
      step s = .next { s with env := rest, cause := 1, fpc := s.pc, finsn := w, fault := true,
                              busy := false }) ∧
    (w.toNat / 2 ^ 26 = 0x00 ∨ (0x0A ≤ w.toNat / 2 ^ 26 ∧ w.toNat / 2 ^ 26 ≤ 0x0F) ∨
        w.toNat / 2 ^ 26 = 0x16 ∨ w.toNat / 2 ^ 26 = 0x17 ∨ 0x1C ≤ w.toNat / 2 ^ 26 →
      step s = .next { s with env := rest, cause := 1, fpc := s.pc, finsn := w, fault := true,
                              busy := false })

/-- Rule R91: the must-be-zero bits of each opcode. A word with an instruction's opcode decodes when
they are all zero, and raises ILLEGAL_INSTRUCTION when one of them is 1. -/
def Obligations.MustBeZeroBitsAreChecked : Prop :=
  ∀ (op : Nat) (mbz : Word),
    (op, mbz) ∈ ([(0x01, 0x03FFFFFF), (0x02, 0x03FFFFFF), (0x03, 0x03FF0000), (0x04, 0x00030000),
        (0x05, 0x00030000), (0x06, 0x00030000), (0x07, 0x00030000), (0x08, 0x003F0000),
        (0x09, 0x0003FFFF), (0x10, 0x0003FFFF)] ++
      [(0x11, 0x0003FFFF), (0x12, 0x0003FFFF), (0x13, 0x00003FFF), (0x14, 0x00003FFF),
        (0x15, 0x00003FFF), (0x18, 0x000003FF), (0x19, 0x0003C3FF), (0x1A, 0x000003FF),
        (0x1B, 0x000003FF)] : List (Nat × Word)) →
    ∀ (w : Word), w.toNat / 2 ^ 26 = op →
      (w &&& mbz = 0 → ∃ i, decodeWord w = .ok i) ∧
      (w &&& mbz ≠ 0 → decodeWord w = .error .mustBeZero ∧
        ∀ (s : State) (rest : List Event), SequencerNext s rest → s.busy = true →
          s.pc.toNat < s.params.imemWords → s.imemWord s.pc.toNat = w →
          step s = .next { s with env := rest, cause := 1, fpc := s.pc, finsn := w, fault := true,
                                  busy := false })

/-- The words of the worked example the spec derives in rule R97, and words of each family written
out bit by bit from rules R81 to R86. -/
def Obligations.WrittenOutWordsDecode : Prop :=
  encode (.modpow 3 1 2 4) = 0x60C49000 ∧ encode (.ldi 5 0x10) = 0x21400010 ∧
  encode (.beq 2 1 4) = 0x10840004 ∧ encode (.jmp 2) = 0x0C000002 ∧
  decodeWord 0x60C49000 = .ok (.modpow 3 1 2 4) ∧ decodeWord 0x21400010 = .ok (.ldi 5 0x10) ∧
  decodeWord 0x10840004 = .ok (.beq 2 1 4) ∧ decodeWord 0x0C000002 = .ok (.jmp 2) ∧
  decodeWord 0b000101_0010_0001_00_1111111111111110 = .ok (.bne 2 1 (-2)) ∧
  decodeWord 0b010011_0110_1000_1001_0000_0000000000 = .ok (.lcm 6 8 9) ∧
  decodeWord 0b011001_0111_1011_0000_0011_0000000000 = .ok (.modinv 7 11 3) ∧
  decodeWord 0b000010_00000000000000000000000000 = .ok .halt

/-! ## Fetching and running -/

/-- A step runs the decoded instruction: when the sequencer's turn is next and the word at pc decodes,
the step is exec of that instruction (R80, R140). -/
def Obligations.StepRunsTheDecodedInstruction : Prop :=
  ∀ (s : State) (i : Instr), s.busy = true → s.pc.toNat < s.params.imemWords →
    decodeWord (s.imemWord s.pc.toNat) = .ok i →
    (s.env = [] → step s = exec i s) ∧
    ∀ rest, s.env = .sequencer :: rest → step s = exec i { s with env := rest }

/-- A fetch at pc >= IMEM_WORDS raises FETCH_RANGE with FPC the out-of-range pc and FINSN 0 (R80,
R140, R162), whatever events are listed after the step. -/
def Obligations.FetchPastImemRaisesFetchRange : Prop :=
  ∀ (s : State) (rest : List Event), SequencerNext s rest → s.busy = true →
    s.params.imemWords ≤ s.pc.toNat →
    step s = .next { s with env := rest, cause := 2, fpc := s.pc, finsn := 0, fault := true,
                            busy := false }

/-! ## Data movement and control transfer -/

/-- Rule R142: one word is NOP, and its other words are illegal; after a NOP at the last index of
IMEM the next step raises FETCH_RANGE. -/
def Obligations.NopAdvancesPcOnly : Prop :=
  (∀ w : Word, decodeWord w = .ok .nop ↔ w = 0x04000000) ∧
  (∀ w : Word, w.toNat / 2 ^ 26 = 0x01 → w ≠ 0x04000000 → decodeWord w = .error .mustBeZero) ∧
  ∀ s : State, exec .nop s = .next { s with pc := s.pc + 1 } ∧
    ∀ rest, SequencerNext s rest → s.params.legal = true → s.busy = true →
      s.pc.toNat + 1 = s.params.imemWords →
      step { s with pc := s.pc + 1 } = .next { s with
        env := rest, pc := s.pc + 1, cause := 2, fpc := s.pc + 1, finsn := 0, fault := true,
        busy := false }

/-- Rule R143: the immediate is zero-extended. -/
def Obligations.LdiLoadsTheImmediate : Prop :=
  ∀ (rd : Reg) (imm : Nat) (s : State), imm ≤ 65535 →
    decodeWord (formatI 0x08 rd imm) = .ok (.ldi rd imm) ∧
    exec (.ldi rd imm) s = .next { s with x := s.x.set rd.val imm, pc := s.pc + 1 }

/-- Rule R144. -/
def Obligations.MovCopiesTheRegister : Prop :=
  ∀ (rd ra : Reg) (s : State),
    decodeWord (formatR 0x09 rd ra 0 0) = .ok (.mov rd ra) ∧
    exec (.mov rd ra) s = .next { s with x := s.x.set rd.val (s.reg ra), pc := s.pc + 1 }

/-- Rule R145: an absolute index, not checked by the JMP; one past IMEM makes the next step raise
FETCH_RANGE. -/
def Obligations.JmpSetsPc : Prop :=
  ∀ (tgt : Nat) (s : State), tgt ≤ 65535 →
    decodeWord (formatJ 0x03 tgt) = .ok (.jmp tgt) ∧
    ∃ t, exec (.jmp tgt) s = .next t ∧ t = { s with pc := t.pc } ∧ t.pc.toNat = tgt ∧
      ∀ rest, SequencerNext s rest → s.busy = true → s.params.imemWords ≤ tgt →
        step t = .next
          { t with env := rest, cause := 2, fpc := t.pc, finsn := 0, fault := true, busy := false }

/-- Rule R146. The target is `(pc + off) mod 2^16`. -/
def Obligations.BeqBranchesWhenEqual : Prop :=
  ∀ (ra rb : Reg) (off : Int) (s : State), -32768 ≤ off → off ≤ 32767 →
    decodeWord (formatB 0x04 ra rb (off % 65536).toNat) = .ok (.beq ra rb off) ∧
    (s.reg ra = s.reg rb → ∃ t, exec (.beq ra rb off) s = .next t ∧ t = { s with pc := t.pc } ∧
      (t.pc.toNat : Int) = (s.pc.toNat + off) % 65536) ∧
    (s.reg ra ≠ s.reg rb → exec (.beq ra rb off) s = .next { s with pc := s.pc + 1 })

/-- Rule R147. -/
def Obligations.BneBranchesWhenNotEqual : Prop :=
  ∀ (ra rb : Reg) (off : Int) (s : State), -32768 ≤ off → off ≤ 32767 →
    decodeWord (formatB 0x05 ra rb (off % 65536).toNat) = .ok (.bne ra rb off) ∧
    (s.reg ra ≠ s.reg rb → ∃ t, exec (.bne ra rb off) s = .next t ∧ t = { s with pc := t.pc } ∧
      (t.pc.toNat : Int) = (s.pc.toNat + off) % 65536) ∧
    (s.reg ra = s.reg rb → exec (.bne ra rb off) s = .next { s with pc := s.pc + 1 })

/-- Rule R148: the comparison is unsigned. -/
def Obligations.BltuBranchesWhenBelow : Prop :=
  ∀ (ra rb : Reg) (off : Int) (s : State), -32768 ≤ off → off ≤ 32767 →
    decodeWord (formatB 0x06 ra rb (off % 65536).toNat) = .ok (.bltu ra rb off) ∧
    (s.reg ra < s.reg rb → ∃ t, exec (.bltu ra rb off) s = .next t ∧ t = { s with pc := t.pc } ∧
      (t.pc.toNat : Int) = (s.pc.toNat + off) % 65536) ∧
    (s.reg rb ≤ s.reg ra → exec (.bltu ra rb off) s = .next { s with pc := s.pc + 1 })

/-- Rule R149: the comparison is unsigned. -/
def Obligations.BgeuBranchesWhenNotBelow : Prop :=
  ∀ (ra rb : Reg) (off : Int) (s : State), -32768 ≤ off → off ≤ 32767 →
    decodeWord (formatB 0x07 ra rb (off % 65536).toNat) = .ok (.bgeu ra rb off) ∧
    (s.reg rb ≤ s.reg ra → ∃ t, exec (.bgeu ra rb off) s = .next t ∧ t = { s with pc := t.pc } ∧
      (t.pc.toNat : Int) = (s.pc.toNat + off) % 65536) ∧
    (s.reg ra < s.reg rb → exec (.bgeu ra rb off) s = .next { s with pc := s.pc + 1 })

/-- Rule R158: BUSY cleared, DONE set, pc and every register kept; IRQ follows IRQ_EN; and a later
START without a PC write runs the same HALT again, a run of one step. -/
def Obligations.HaltEndsTheRun : Prop :=
  (∀ w : Word, decodeWord w = .ok .halt ↔ w = 0x08000000) ∧
  (∀ s : State, ∃ t, exec .halt s = .next t ∧ t = { s with busy := false, done := true } ∧
    t.irq = s.irqEn) ∧
  ∀ (s : State) (v : Word), s.busy = false → s.fault = false →
    s.pc.toNat < s.params.imemWords → s.imemWord s.pc.toNat = 0x08000000 →
    v.getLsbD 0 = true → v.getLsbD 1 = false →
    core.run 2 { s with env := [.access (.write (s.params.base + 0x008) 4 v)] } =
      .next { s with env := [], irqEn := v.getLsbD 2, done := true }

/-! ## Integer arithmetic -/

/-- Rule R101. -/
def Obligations.SqrSquaresOrOverflows : Prop :=
  ∀ (rd ra : Reg) (s : State),
    decodeWord (formatR 0x10 rd ra 0 0) = .ok (.sqr rd ra) ∧
    (s.reg ra * s.reg ra < 2 ^ s.params.width → exec (.sqr rd ra) s =
      .next { s with x := s.x.set rd.val (s.reg ra * s.reg ra), pc := s.pc + 1 }) ∧
    (2 ^ s.params.width ≤ s.reg ra * s.reg ra → exec (.sqr rd ra) s =
      .next { s with cause := 6, fpc := s.pc, finsn := formatR 0x10 rd ra 0 0,
                     fault := true, busy := false })

/-- Rule R102. -/
def Obligations.IncIncrementsOrOverflows : Prop :=
  ∀ (rd ra : Reg) (s : State),
    decodeWord (formatR 0x11 rd ra 0 0) = .ok (.inc rd ra) ∧
    (s.reg ra + 1 < 2 ^ s.params.width → exec (.inc rd ra) s =
      .next { s with x := s.x.set rd.val (s.reg ra + 1), pc := s.pc + 1 }) ∧
    (2 ^ s.params.width ≤ s.reg ra + 1 → exec (.inc rd ra) s =
      .next { s with cause := 6, fpc := s.pc, finsn := formatR 0x11 rd ra 0 0,
                     fault := true, busy := false })

/-- Rule R103. -/
def Obligations.DecDecrementsOrRaisesRange : Prop :=
  ∀ (rd ra : Reg) (s : State),
    decodeWord (formatR 0x12 rd ra 0 0) = .ok (.dec rd ra) ∧
    (s.reg ra ≠ 0 → exec (.dec rd ra) s =
      .next { s with x := s.x.set rd.val (s.reg ra - 1), pc := s.pc + 1 }) ∧
    (s.reg ra = 0 → exec (.dec rd ra) s =
      .next { s with cause := 7, fpc := s.pc, finsn := formatR 0x12 rd ra 0 0,
                     fault := true, busy := false })

/-- Rule R104: ZERO_DIVIDE when both operands are 0, else OVERFLOW when the multiple does not fit. -/
def Obligations.LcmWritesTheLeastCommonMultiple : Prop :=
  ∀ (rd ra rb : Reg) (s : State),
    decodeWord (formatR 0x13 rd ra rb 0) = .ok (.lcm rd ra rb) ∧
    (s.reg ra = 0 → s.reg rb = 0 → exec (.lcm rd ra rb) s =
      .next { s with cause := 8, fpc := s.pc, finsn := formatR 0x13 rd ra rb 0,
                     fault := true, busy := false }) ∧
    ((s.reg ra ≠ 0 ∨ s.reg rb ≠ 0) →
      Nat.lcm (s.reg ra) (s.reg rb) < 2 ^ s.params.width → exec (.lcm rd ra rb) s =
      .next { s with x := s.x.set rd.val (s.reg ra * s.reg rb / Nat.gcd (s.reg ra) (s.reg rb)),
                     pc := s.pc + 1 }) ∧
    ((s.reg ra ≠ 0 ∨ s.reg rb ≠ 0) →
      2 ^ s.params.width ≤ Nat.lcm (s.reg ra) (s.reg rb) → exec (.lcm rd ra rb) s =
      .next { s with cause := 6, fpc := s.pc, finsn := formatR 0x13 rd ra rb 0,
                     fault := true, busy := false })

/-- Rule R105: floor((x - 1) / n), with no congruence check; ZERO_DIVIDE before RANGE. -/
def Obligations.LfnWritesTheLFunction : Prop :=
  ∀ (rd ra rb : Reg) (s : State),
    decodeWord (formatR 0x14 rd ra rb 0) = .ok (.lfn rd ra rb) ∧
    (s.reg rb = 0 → exec (.lfn rd ra rb) s =
      .next { s with cause := 8, fpc := s.pc, finsn := formatR 0x14 rd ra rb 0,
                     fault := true, busy := false }) ∧
    (s.reg rb ≠ 0 → s.reg ra = 0 → exec (.lfn rd ra rb) s =
      .next { s with cause := 7, fpc := s.pc, finsn := formatR 0x14 rd ra rb 0,
                     fault := true, busy := false }) ∧
    (s.reg rb ≠ 0 → s.reg ra ≠ 0 → exec (.lfn rd ra rb) s =
      .next { s with x := s.x.set rd.val ((s.reg ra - 1) / s.reg rb), pc := s.pc + 1 })

/-- Rule R106: the full product or OVERFLOW. -/
def Obligations.MulMultipliesOrOverflows : Prop :=
  ∀ (rd ra rb : Reg) (s : State),
    decodeWord (formatR 0x15 rd ra rb 0) = .ok (.mul rd ra rb) ∧
    (s.reg ra * s.reg rb < 2 ^ s.params.width → exec (.mul rd ra rb) s =
      .next { s with x := s.x.set rd.val (s.reg ra * s.reg rb), pc := s.pc + 1 }) ∧
    (2 ^ s.params.width ≤ s.reg ra * s.reg rb → exec (.mul rd ra rb) s =
      .next { s with cause := 6, fpc := s.pc, finsn := formatR 0x15 rd ra rb 0,
                     fault := true, busy := false })

/-! ## Modular arithmetic -/

/-- Rule R121: every modulus m >= 1, any exponent, with b ^ 0 = 1. -/
def Obligations.ModpowWritesThePower : Prop :=
  ∀ (rd ra rb rc : Reg) (s : State),
    decodeWord (formatR 0x18 rd ra rb rc) = .ok (.modpow rd ra rb rc) ∧
    (s.reg rc = 0 → exec (.modpow rd ra rb rc) s =
      .next { s with cause := 3, fpc := s.pc, finsn := formatR 0x18 rd ra rb rc,
                     fault := true, busy := false }) ∧
    (s.reg rc ≠ 0 → exec (.modpow rd ra rb rc) s =
      .next { s with x := s.x.set rd.val (s.reg ra ^ s.reg rb % s.reg rc), pc := s.pc + 1 })

/-- Rule R125: the inverse is the only y in [0, m) with a * y = 1 modulo m (R10). -/
def Obligations.ModinvWritesTheInverse : Prop :=
  ∀ (rd ra rc : Reg) (s : State),
    decodeWord (formatR 0x19 rd ra 0 rc) = .ok (.modinv rd ra rc) ∧
    (s.reg rc = 0 → exec (.modinv rd ra rc) s =
      .next { s with cause := 3, fpc := s.pc, finsn := formatR 0x19 rd ra 0 rc,
                     fault := true, busy := false }) ∧
    (s.reg rc ≠ 0 → Nat.gcd (s.reg ra) (s.reg rc) ≠ 1 → exec (.modinv rd ra rc) s =
      .next { s with cause := 5, fpc := s.pc, finsn := formatR 0x19 rd ra 0 rc,
                     fault := true, busy := false }) ∧
    (s.reg rc ≠ 0 → Nat.gcd (s.reg ra) (s.reg rc) = 1 → ∃ y,
      exec (.modinv rd ra rc) s = .next { s with x := s.x.set rd.val y, pc := s.pc + 1 } ∧
      y < s.reg rc ∧ (s.reg ra % s.reg rc) * y % s.reg rc = 1 % s.reg rc ∧
      ∀ z, z < s.reg rc → (s.reg ra % s.reg rc) * z % s.reg rc = 1 % s.reg rc → z = y)

/-- Rule R128: every modulus m >= 1, no operand reduced beforehand. -/
def Obligations.ModmulWritesTheProduct : Prop :=
  ∀ (rd ra rb rc : Reg) (s : State),
    decodeWord (formatR 0x1A rd ra rb rc) = .ok (.modmul rd ra rb rc) ∧
    (s.reg rc = 0 → exec (.modmul rd ra rb rc) s =
      .next { s with cause := 3, fpc := s.pc, finsn := formatR 0x1A rd ra rb rc,
                     fault := true, busy := false }) ∧
    (s.reg rc ≠ 0 → exec (.modmul rd ra rb rc) s =
      .next { s with x := s.x.set rd.val (s.reg ra * s.reg rb % s.reg rc), pc := s.pc + 1 })

/-- Rule R131: (a * b * inv(2^W mod m, m)) mod m for odd m; ZERO_MODULUS before EVEN_MODULUS. -/
def Obligations.MontmulWritesTheMontgomeryProduct : Prop :=
  ∀ (rd ra rb rc : Reg) (s : State),
    decodeWord (formatR 0x1B rd ra rb rc) = .ok (.montmul rd ra rb rc) ∧
    (s.reg rc = 0 → exec (.montmul rd ra rb rc) s =
      .next { s with cause := 3, fpc := s.pc, finsn := formatR 0x1B rd ra rb rc,
                     fault := true, busy := false }) ∧
    (s.reg rc ≠ 0 → s.reg rc % 2 = 0 → exec (.montmul rd ra rb rc) s =
      .next { s with cause := 4, fpc := s.pc, finsn := formatR 0x1B rd ra rb rc,
                     fault := true, busy := false }) ∧
    (s.reg rc % 2 = 1 → ∃ y, y < s.reg rc ∧
      2 ^ s.params.width % s.reg rc * y % s.reg rc = 1 % s.reg rc ∧
      exec (.montmul rd ra rb rc) s =
        .next { s with x := s.x.set rd.val (s.reg ra * s.reg rb * y % s.reg rc), pc := s.pc + 1 })

/-- Two Montgomery products, the second with R2 = 2^(2W) mod m, make the modular product, and MODPOW
of 2 and 2W writes R2 into any register (what the spec infers in rule R133 from R121, R128 and
R131). -/
def Obligations.TwoMontgomeryProductsMakeAModularProduct : Prop :=
  (∀ (rd ra rb rc rk : Reg) (s : State), rd ≠ rc → rd ≠ rk → s.reg rc % 2 = 1 →
    s.reg rk = 2 ^ (2 * s.params.width) % s.reg rc →
    ∃ t u v, exec (.montmul rd ra rb rc) s = .next t ∧ exec (.montmul rd rd rk rc) t = .next u ∧
      exec (.modmul rd ra rb rc) s = .next v ∧ u.reg rd = v.reg rd) ∧
  (∀ p : Params, p.legal = true → 2 * p.width ≤ 16384) ∧
  ∀ (rq rx ry rc : Reg) (s : State), s.reg rc % 2 = 1 → s.reg rx = 2 →
    s.reg ry = 2 * s.params.width →
    ∃ t, exec (.modpow rq rx ry rc) s = .next t ∧
      t.reg rq = 2 ^ (2 * s.params.width) % s.reg rc

/-! ## What holds of every instruction -/

/-- The frame: an instruction changes no register but its destination, no byte of IMEM, no parameter,
not WERR, IRQ_EN or the host's side; and BUSY, DONE, FAULT, CAUSE, FPC and FINSN change only as HALT
(R158) or a fault entry (R163) says. -/
def Obligations.InstructionsChangeOnlyWhatTheyName : Prop :=
  ∀ (i : Instr) (s t : State), exec i s = .next t →
    (∀ r, i.dest ≠ some r → t.reg r = s.reg r) ∧
    (∀ a, t.imem.read a = s.imem.read a) ∧
    t.params = s.params ∧ t.werr = s.werr ∧ t.irqEn = s.irqEn ∧ t.env = s.env ∧
    t.replies = s.replies ∧
    ((∃ c, t = { s with cause := c, fpc := s.pc, finsn := encode i, fault := true, busy := false }) ∨
      (i = .halt ∧ t = { s with busy := false, done := true }) ∨
      (t.busy = s.busy ∧ t.done = s.done ∧ t.fault = s.fault ∧ t.cause = s.cause ∧
        t.fpc = s.fpc ∧ t.finsn = s.finsn))

/-- An instruction reads only the registers its source fields name (R22, R100): whatever another
register holds, the rest of the outcome is the same. -/
def Obligations.InstructionsReadOnlyTheirSources : Prop :=
  ∀ (i : Instr) (r : Reg) (v : Nat) (s t : State), r ∉ i.sources → exec i s = .next t →
    ∃ t', exec i (s.setReg r v) = .next t' ∧ { t' with x := t.x } = t ∧
      (∀ q, q ≠ r → t'.reg q = t.reg q) ∧
      (t'.reg r = t.reg r ∨ (t'.reg r = v ∧ t.reg r = s.reg r))

/-- pc after an instruction (R24): a fault and HALT leave it, everything else but a control transfer
adds 1 modulo 2^16. -/
def Obligations.PcAdvancesUnlessTransferred : Prop :=
  ∀ (i : Instr) (s t : State), s.fault = false → exec i s = .next t →
    (t.fault = true → t.pc = s.pc) ∧
    (i = .halt → t.pc = s.pc) ∧
    (t.fault = false → (i.dest ≠ none ∨ i = .nop) → t.pc.toNat = (s.pc.toNat + 1) % 2 ^ 16)

/-- No instruction raises a fault other than those its rule lists, and the first nine raise none
(what the spec infers in rule R161 from R100, R120, R140 and R160). -/
def Obligations.EachInstructionRaisesOnlyItsCauses : Prop :=
  ∀ (i : Instr) (s t : State), s.fault = false → exec i s = .next t → t.fault = true →
    match i with
    | .nop | .halt | .jmp _ => False
    | .beq _ _ _ | .bne _ _ _ | .bltu _ _ _ | .bgeu _ _ _ => False
    | .ldi _ _ | .mov _ _ => False
    | .sqr _ _ | .inc _ _ | .mul _ _ _ => t.cause = 6
    | .dec _ _ => t.cause = 7
    | .lcm _ _ _ => t.cause = 8 ∨ t.cause = 6
    | .lfn _ _ _ => t.cause = 8 ∨ t.cause = 7
    | .modpow _ _ _ _ | .modmul _ _ _ _ => t.cause = 3
    | .modinv _ _ _ => t.cause = 3 ∨ t.cause = 5
    | .montmul _ _ _ _ => t.cause = 3 ∨ t.cause = 4

/-- A fault records its cause, the pc of the step and the fetched word, 0 when none was fetched (R162,
R163), and nothing else of the state changes but FAULT and BUSY (what the spec infers in rule R164;
that the model records the word as the instruction's own encoding is log 8). -/
def Obligations.FaultsArePreciseAndRecorded : Prop :=
  ∀ (s t : State) (rest : List Event), SequencerNext s rest → s.busy = true → s.fault = false →
    step s = .next t → t.fault = true →
    t = { s with env := rest, cause := t.cause, fpc := s.pc,
                 finsn := if s.pc.toNat < s.params.imemWords then s.imemWord s.pc.toNat else 0,
                 fault := true, busy := false } ∧
    1 ≤ t.cause.toNat ∧ t.cause.toNat ≤ 8 ∧ (t.cause = 2 ↔ s.params.imemWords ≤ s.pc.toNat)

/-! ## Runs -/

/-- A step of a run goes on, ends with DONE or ends with FAULT, exactly one of these (R12, R29); IRQ
is low during a run and is IRQ_EN when it ends (R35, R168). -/
def Obligations.RunGoesOnOrEndsInHaltOrFault : Prop :=
  ∀ (s t : State) (rest : List Event), s.Inv → SequencerNext s rest → s.busy = true →
    step s = .next t →
    ((t.busy = true ∧ t.done = false ∧ t.fault = false) ∨
      (t.busy = false ∧ t.done = true ∧ t.fault = false) ∨
      (t.busy = false ∧ t.done = false ∧ t.fault = true)) ∧
    s.irq = false ∧ t.irq = (s.irqEn && !t.busy)

/-- An idle block takes no step (R20, R176; that the model's step then answers the same state is its
choice, log 5), and only an accepted START leaves idle (R177). -/
def Obligations.IdleBlockStaysIdleUntilStarted : Prop :=
  ∀ s : State, s.busy = false →
    (s.env = [] → step s = .next s) ∧
    (∀ rest, s.env = .sequencer :: rest → step s = .next { s with env := rest }) ∧
    ∀ t, step s = .next t → t.busy = true →
      ∃ (v : Word) (rest : List Event),
        s.env = .access (.write (s.params.base + 0x008) 4 v) :: rest ∧
        v.getLsbD 0 = true ∧ v.getLsbD 1 = false ∧ s.fault = false ∧
        t = { s with env := rest, irqEn := v.getLsbD 2, done := false, busy := true }

/-- A host that clears FAULT and restarts without changing anything gets the same fault
again (R166), and so the same state. -/
def Obligations.RestartAfterAFaultFaultsAgain : Prop :=
  ∀ (s t : State) (rest : List Event), s.Inv → SequencerNext s rest → s.busy = true →
    step s = .next t → t.fault = true →
    core.run 3 { t with env := [.access (.write (s.params.base + 0x00C) 4 4),
        .access (.write (s.params.base + 0x008) 4 (if s.irqEn then 5 else 1)), .sequencer] ++
        rest } =
      .next t

/-! ## The host interface -/

/-- A host access at bus address MMB_BASE + a is MemRead(a, n) or MemWrite(a, n, v) as one event (R50,
R61, R69); what a read returned is kept in `replies` (the model's own, log 4). -/
def Obligations.HostEventIsTheWindowAccess : Prop :=
  ∀ (s : State) (a n : Nat) (v : Word) (rest : List Event), a < 0x8000 →
    (s.env = .access (.read (s.params.base + a) n) :: rest →
      ∃ t, step s = .next t ∧
        t = { (memRead a n { s with env := rest }).2 with
                replies := s.replies ++ [(memRead a n { s with env := rest }).1] }) ∧
    (s.env = .access (.write (s.params.base + a) n v) :: rest →
      step s = .next (memWrite a n v { s with env := rest }))

/-- MemRead of rule R69: the value returned for each offset and the state after. -/
def Obligations.MemReadReturnsTheItem : Prop :=
  ∀ (a n : Nat) (s : State), s.params.legal = true → a < 0x8000 →
    memRead a n s =
      if n ≠ 4 ∨ a % 4 ≠ 0 then (0, { s with werr := true })
      else
        (if a = 0x000 then 0x4D4D0100
          else if a = 0x004 then BitVec.ofNat 32 (s.params.imemWords * 2 ^ 16 + s.params.nlimbs)
          else if a = 0x008 then BitVec.ofNat 32 (s.irqEn.toNat * 2 ^ 2)
          else if a = 0x00C then BitVec.ofNat 32 (s.werr.toNat * 2 ^ 3 + s.fault.toNat * 2 ^ 2 +
            s.done.toNat * 2 + s.busy.toNat)
          else if a = 0x010 then BitVec.ofNat 32 s.pc.toNat
          else if a = 0x014 then BitVec.ofNat 32 s.cause.toNat
          else if a = 0x018 then BitVec.ofNat 32 s.fpc.toNat
          else if a = 0x01C then s.finsn
          else if 0x2000 ≤ a ∧ a < 0x2000 + 4 * s.params.imemWords then
            s.imemWord ((a - 0x2000) / 4)
          else if 0x4000 ≤ a ∧ a < 0x4000 + 64 * s.params.nlimbs then
            BitVec.ofNat 32 (s.reg (Fin.ofNat 16 ((a - 0x4000) / 4 / s.params.nlimbs)) /
              2 ^ (32 * ((a - 0x4000) / 4 % s.params.nlimbs)) % 2 ^ 32)
          else 0, s)

/-- MemWrite of rule R69: the state after, for each offset. -/
def Obligations.MemWriteHasItsEffect : Prop :=
  ∀ (a n : Nat) (v : Word) (s : State), s.params.legal = true → a < 0x8000 →
    memWrite a n v s =
      if n ≠ 4 ∨ a % 4 ≠ 0 then { s with werr := true }
      else if a = 0x008 then
        (if v.getLsbD 1 then
            { s with x := Vector.replicate 16 0, pc := 0, busy := false, done := false,
                     fault := false, werr := false, irqEn := false, cause := 0, fpc := 0,
                     finsn := 0 }
          else if v.getLsbD 0 then
            (if s.busy || s.fault then { s with irqEn := v.getLsbD 2, werr := true }
              else { s with irqEn := v.getLsbD 2, done := false, busy := true })
          else { s with irqEn := v.getLsbD 2 })
      else if a = 0x00C then
        { s with done := if v.getLsbD 1 then false else s.done,
                 fault := if v.getLsbD 2 then false else s.fault,
                 werr := if v.getLsbD 3 then false else s.werr }
      else if a = 0x010 then
        (if s.busy then { s with werr := true } else { s with pc := BitVec.ofNat 16 v.toNat })
      else if 0x2000 ≤ a ∧ a < 0x2000 + 4 * s.params.imemWords then
        (if s.busy then { s with werr := true } else { s with imem := s.imem.writeWord a v })
      else if 0x4000 ≤ a ∧ a < 0x4000 + 64 * s.params.nlimbs then
        (if s.busy then { s with werr := true }
          else
            let r : Reg := Fin.ofNat 16 ((a - 0x4000) / 4 / s.params.nlimbs)
            let k := (a - 0x4000) / 4 % s.params.nlimbs
            { s with x := s.x.set r.val (s.reg r - s.reg r / 2 ^ (32 * k) % 2 ^ 32 * 2 ^ (32 * k) +
                       v.toNat * 2 ^ (32 * k)) })
      else s

/-- Rule R52: where limb k of register r lies, what it holds, and that the limbs make the register. -/
def Obligations.RegisterWindowHoldsTheLimbs : Prop :=
  ∀ s : State, s.Inv →
    (∀ (r : Reg) (k : Nat), k < s.params.nlimbs →
      memRead (0x4000 + 4 * (r.val * s.params.nlimbs + k)) 4 s =
        (BitVec.ofNat 32 (s.reg r / 2 ^ (32 * k) % 2 ^ 32), s)) ∧
    ∀ r : Reg, s.reg r = ((List.range s.params.nlimbs).map fun k =>
      (memRead (0x4000 + 4 * (r.val * s.params.nlimbs + k)) 4 s).1.toNat * 2 ^ (32 * k)).sum

/-- A host write of a limb while idle: that limb reads back, every other limb of every register reads
as before, and nothing but the registers changes (R52, R69). -/
def Obligations.RegisterWindowWriteReplacesOneLimb : Prop :=
  ∀ (s : State) (r : Reg) (k : Nat) (v : Word), s.Inv → s.busy = false → k < s.params.nlimbs →
    let t := memWrite (0x4000 + 4 * (r.val * s.params.nlimbs + k)) 4 v s
    { t with x := s.x } = s ∧
    ∀ (q : Reg) (j : Nat), j < s.params.nlimbs →
      (memRead (0x4000 + 4 * (q.val * s.params.nlimbs + j)) 4 t).1 =
        if q = r ∧ j = k then v
        else (memRead (0x4000 + 4 * (q.val * s.params.nlimbs + j)) 4 s).1

/-- Rule R54 with the byte lanes of R53: IMEM[i] is the word at 0x2000 + 4 * i, read whether BUSY is 0
or 1; a write while idle sets it, every other byte reads as before, and a fetch sees it (R65); a
write while busy only sets WERR. -/
def Obligations.ImemWindowReadsAndWritesWords : Prop :=
  ∀ (s : State) (i : Nat) (v : Word), s.Inv → i < s.params.imemWords →
    memRead (0x2000 + 4 * i) 4 s = (s.imemWord i, s) ∧
    (s.busy = true → memWrite (0x2000 + 4 * i) 4 v s = { s with werr := true }) ∧
    (s.busy = false →
      let t := memWrite (0x2000 + 4 * i) 4 v s
      { t with imem := s.imem } = s ∧ t.imemWord i = v ∧
      (∀ j, j < 4 → (t.imem.read (0x2000 + 4 * i + j)).toNat = v.toNat / 2 ^ (8 * j) % 2 ^ 8) ∧
      (∀ a, a < 0x2000 + 4 * i ∨ 0x2000 + 4 * i + 4 ≤ a → t.imem.read a = s.imem.read a) ∧
      (t.pc.toNat = i → t.fetch = some v))

/-- Rule R58: what a host write does while BUSY = 1. -/
def Obligations.RunRejectsHostWrites : Prop :=
  ∀ (s : State) (a : Nat) (v : Word), s.busy = true → s.params.legal = true → a % 4 = 0 →
    ((a = 0x010 ∨ (0x2000 ≤ a ∧ a < 0x2000 + 4 * s.params.imemWords) ∨
        (0x4000 ≤ a ∧ a < 0x4000 + 64 * s.params.nlimbs)) →
      memWrite a 4 v s = { s with werr := true }) ∧
    (a = 0x008 → v.getLsbD 0 = true → v.getLsbD 1 = false →
      memWrite a 4 v s = { s with irqEn := v.getLsbD 2, werr := true }) ∧
    (a = 0x008 → v.getLsbD 1 = true → memWrite a 4 v s = softReset s) ∧
    (a = 0x00C → memWrite a 4 v s =
      { s with done := s.done && !v.getLsbD 1, fault := s.fault && !v.getLsbD 2,
               werr := s.werr && !v.getLsbD 3 })

/-- Rule R177: a START is refused with WERR while BUSY or FAULT, else it clears DONE and sets BUSY and
the run begins at the current pc. -/
def Obligations.StartNeedsAnIdleUnfaultedBlock : Prop :=
  ∀ (s : State) (v : Word) (rest : List Event),
    s.env = .access (.write (s.params.base + 0x008) 4 v) :: rest →
    v.getLsbD 0 = true → v.getLsbD 1 = false →
    (s.busy = true ∨ s.fault = true →
      step s = .next { s with env := rest, irqEn := v.getLsbD 2, werr := true }) ∧
    (s.busy = false → s.fault = false →
      step s = .next { s with env := rest, irqEn := v.getLsbD 2, done := false, busy := true })

/-- Rule R191: SRST at any time clears everything but IMEM; START and IRQ_EN of the same write are
ignored. -/
def Obligations.SoftResetClearsAllButImem : Prop :=
  ∀ (s : State) (v : Word) (rest : List Event),
    s.env = .access (.write (s.params.base + 0x008) 4 v) :: rest → v.getLsbD 1 = true →
    ∃ t, step s = .next t ∧ (∀ r, t.reg r = 0) ∧ t.pc = 0 ∧ t.busy = false ∧ t.done = false ∧
      t.fault = false ∧ t.werr = false ∧ t.irqEn = false ∧ t.cause = 0 ∧ t.fpc = 0 ∧ t.finsn = 0 ∧
      t.imem = s.imem ∧ t.params = s.params ∧ t.replies = s.replies ∧ t.env = rest

/-- A supported read changes nothing (R57; a rejected one sets WERR by R55, log 19), and writing
IMEM, the register window, PC or IRQ_EN twice is writing it once. -/
def Obligations.ReadsAreFreeOfSideEffects : Prop :=
  ∀ (s : State) (a : Nat) (v : Word), s.Inv → a % 4 = 0 →
    (memRead a 4 s).2 = s ∧
    (a = 0x010 ∨ (a = 0x008 ∧ v.getLsbD 0 = false ∧ v.getLsbD 1 = false) ∨
        (0x2000 ≤ a ∧ a < 0x2000 + 4 * s.params.imemWords) ∨
        (0x4000 ≤ a ∧ a < 0x4000 + 64 * s.params.nlimbs) →
      memWrite a 4 v (memWrite a 4 v s) = memWrite a 4 v s)

/-- During a run nothing but a hardware reset changes IMEM (R65), and no host access but a soft reset
changes a register (R58). -/
def Obligations.ProgramAndOperandsAreFixedDuringARun : Prop :=
  ∀ s t : State, s.busy = true → step s = .next t →
    ((∀ rest, s.env ≠ .hardwareReset :: rest) → t.imem = s.imem) ∧
    ∀ (h : HostAccess) (rest : List Event), s.env = .access h :: rest →
      t.x = s.x ∨ ∃ v : Word, h = .write (s.params.base + 0x008) 4 v ∧ v.getLsbD 1 = true

/-- Once a run is over, registers and IMEM change only by a host write or a hardware reset, so later
reads return the run's final values (R63). -/
def Obligations.ResultsStandUntilTheHostWrites : Prop :=
  ∀ s t : State, s.busy = false → step s = .next t →
    (∃ (addr size : Nat) (v : Word) (rest : List Event),
      s.env = .access (.write addr size v) :: rest) ∨
    (∃ rest, s.env = .hardwareReset :: rest) ∨ (t.x = s.x ∧ t.imem = s.imem)

/-- Bringing a run up (R194 steps 3 to 7, by R52, R54, R31 and R177): the host's writes leave the
program in IMEM, each operand whole in its register, pc at the entry (as it was where the host does
not write PC), WERR cleared where the host clears it and the run started, and nothing else of IMEM
or of the registers changed. Which optional writes R194 names are performed is quantified over; how
the others are laid out (each word once, lowest first, IRQ_EN with START) is the model's choice (log
23). -/
def Obligations.BringUpStartsTheProgramOnItsOperands : Prop :=
  ∀ (s : State) (program : List Word) (operands : List (Reg × Nat))
    (entry : Option (BitVec 16)) (clear irq : Bool), s.Inv → s.busy = false → s.fault = false →
    program.length ≤ s.params.imemWords → (∀ q ∈ operands, q.2 < 2 ^ s.params.width) →
    (operands.map Prod.fst).Nodup →
    ∃ t, core.run (bringUp s.params program operands entry clear irq).length
        { s with env := bringUp s.params program operands entry clear irq } = .next t ∧
      (∀ (i : Nat) (h : i < program.length), t.imemWord i = program[i]) ∧
      (∀ a, a < 0x2000 ∨ 0x2000 + 4 * program.length ≤ a → t.imem.read a = s.imem.read a) ∧
      (∀ q ∈ operands, t.reg q.1 = q.2) ∧
      (∀ r, r ∉ operands.map Prod.fst → t.reg r = s.reg r) ∧
      t = { s with x := t.x, imem := t.imem, pc := entry.getD s.pc, werr := s.werr && !clear,
                   irqEn := irq, done := false, busy := true, env := [] }

/-! ## The assembler -/

/-- What the assembler puts in IMEM for each line of a source it accepts (R95): an instruction's
word, a `.word` unchanged, and for a label T the index tgt16 = T or the offset off16 = T - pc; an
operand out of range is refused. A line's index is the count of words before it. In the label's
clause, and so in the index T of every jump or branch to it, three things are the model's choice
(log 22), since R95 has a label stand for the index of the next instruction and says no more: a
`.word` after it counts as one, a label with no line after it stands for the count of all words,
and of a label defined twice the first place counts. -/
def Obligations.AssemblerPlacesEachLine : Prop :=
  ∀ (before rest : List AsmLine) (l : AsmLine) (ws : List Word),
    assemble (before ++ l :: rest) = some ws →
    let pc := (before.map AsmLine.size).sum
    let goesTo (f : Nat → Instr) (name : Nat) : Prop :=
      ∃ t, labelIndex name 0 (before ++ l :: rest) = some t ∧ (f t).wellFormed = true ∧
        ws[pc]? = some (encode (f t))
    match l with
    | .label name => .label name ∉ before → labelIndex name 0 (before ++ l :: rest) = some pc
    | .instr i => i.wellFormed = true ∧ ws[pc]? = some (encode i)
    | .word v => ws[pc]? = some v
    | .jmpTo name => goesTo (fun t => .jmp t) name
    | .beqTo ra rb name => goesTo (fun t => .beq ra rb ((t : Int) - pc)) name
    | .bneTo ra rb name => goesTo (fun t => .bne ra rb ((t : Int) - pc)) name
    | .bltuTo ra rb name => goesTo (fun t => .bltu ra rb ((t : Int) - pc)) name
    | .bgeuTo ra rb name => goesTo (fun t => .bgeu ra rb ((t : Int) - pc)) name

/-! ## The functional units -/

/-- The CIOS multiplier of rule R132 (the spec's general knowledge) keeps T below 2m and computes the
Montgomery product with R = 2^(32 * NLIMBS). -/
def Obligations.CiosComputesTheMontgomeryProduct : Prop :=
  ∀ n a b m : Nat, m % 2 = 1 → m < 2 ^ (32 * n) →
    ciosLoop (a % m) (b % m) m (negInv32 m) n < 2 * m ∧
    ciosProduct n a b m < m ∧
    ciosProduct n a b m * 2 ^ (32 * n) % m = a * b % m

/-- The left-to-right exponentiation of rule R122 (the spec's general knowledge) over Montgomery
products gives MODPOW's result for every odd modulus. -/
def Obligations.LadderComputesThePower : Prop :=
  ∀ w b e m : Nat, m % 2 = 1 → e < 2 ^ w → ladderPow w b e m = b ^ e % m

/-- The extended Euclidean engine of rule R126 (the spec's general knowledge) reports INVERSE_ERROR
exactly when gcd(a, m) is not 1, and else gives MODINV's result. -/
def Obligations.InverseEngineComputesTheInverse : Prop :=
  ∀ a m : Nat, 0 < m →
    (inverseEngine a m = none ↔ Nat.gcd a m ≠ 1) ∧
    ∀ y, inverseEngine a m = some y → y < m ∧ a * y % m = 1 % m
end

