-- ==== Sys2Proof/Laws/Decode.lean ====
section
/-! SUPPORT. Reading a masked comparison as equations between fields, what decodeWord answers, and the
fields of an encoded word. -/

namespace Sys2Proof

/-! ## Fields -/

theorem field_eq (w : Word) (hi lo : Nat) : field w hi lo = w.toNat / 2 ^ lo % 2 ^ (hi - lo + 1) := by
  rw [field, Nat.shiftRight_eq_div_pow]

theorem testBit_field (w : Word) (hi lo i : Nat) :
    (field w hi lo).testBit i = (decide (i < hi - lo + 1) && w.getLsbD (lo + i)) := by
  simp [field, Nat.testBit_mod_two_pow, BitVec.getLsbD]

/-- Two words agree on bits hi..lo exactly when their fields hi:lo are equal. -/
theorem field_eq_iff {hi lo : Nat} (h : lo ≤ hi) (v w : Word) :
    field v hi lo = field w hi lo ↔ ∀ i, lo ≤ i → i ≤ hi → v.getLsbD i = w.getLsbD i := by
  constructor
  · intro e i h1 h2
    have := congrArg (fun n => n.testBit (i - lo)) e
    simpa [testBit_field, show i - lo < hi - lo + 1 by omega, show lo + (i - lo) = i by omega]
      using this
  · intro e
    apply Nat.eq_of_testBit_eq
    intro i
    rw [testBit_field, testBit_field]
    by_cases hi' : i < hi - lo + 1
    · simp [hi', e (lo + i) (by omega) (by omega)]
    · simp [hi']

/-- Bit ranges (hi, lo) that make up a mask. -/
def coveredBy (ranges : List (Nat × Nat)) (mask : Word) : Bool :=
  (List.range 32).all fun i => mask.getLsbD i == ranges.any fun r => r.2 ≤ i && i ≤ r.1

/-- A masked comparison says that the fields the mask is made of are the pattern's (rule R86). -/
theorem and_mask_eq_iff (ranges : List (Nat × Nat)) {mask pattern : Word}
    (hr : ranges.all (fun r => r.2 ≤ r.1 && r.1 < 32) = true)
    (hm : coveredBy ranges mask = true) (hp : pattern &&& mask = pattern) (w : Word) :
    w &&& mask = pattern ↔ ∀ r ∈ ranges, field w r.1 r.2 = field pattern r.1 r.2 := by
  simp only [coveredBy, List.all_eq_true, List.mem_range, beq_iff_eq] at hm
  simp only [List.all_eq_true, Bool.and_eq_true, decide_eq_true_eq] at hr
  constructor
  · intro h r hrm
    refine (field_eq_iff (hr r hrm).1 w pattern).2 fun i h1 h2 => ?_
    have hbit : mask.getLsbD i = true := by
      rw [hm i (by have := (hr r hrm).2; omega), List.any_eq_true]
      exact ⟨r, hrm, by simp [h1, h2]⟩
    rw [← h, BitVec.getLsbD_and, hbit, Bool.and_true]
  · intro h
    apply BitVec.eq_of_getLsbD_eq
    intro i hi
    rw [← hp, BitVec.getLsbD_and, BitVec.getLsbD_and]
    cases hb : mask.getLsbD i with
    | false => simp
    | true =>
      rw [hm i hi, List.any_eq_true] at hb
      obtain ⟨r, hrm, hri⟩ := hb
      simp only [Bool.and_eq_true, decide_eq_true_eq] at hri
      rw [(field_eq_iff (hr r hrm).1 w pattern).1 (h r hrm) i hri.1 hri.2]

/-! ## Rows -/

theorem Row.matches_iff (ranges : List (Nat × Nat)) (r : Row)
    (hr : ranges.all (fun r => r.2 ≤ r.1 && r.1 < 32) = true)
    (hm : coveredBy ranges r.mask = true) (hp : r.pattern &&& r.mask = r.pattern) (w : Word) :
    r.matches w = true ↔ ∀ q ∈ ranges, field w q.1 q.2 = field r.pattern q.1 q.2 := by
  rw [Row.matches, beq_iff_eq]
  exact and_mask_eq_iff ranges hr hm hp w

/-- Every row compares the opcode (rule R86). -/
theorem row_opcode {r : Row} (hr : r ∈ opcodeMap) {w : Word} (hm : r.matches w = true) :
    opcodeOf w = opcodeOf r.pattern := by
  have hall : opcodeMap.all (fun r => (List.range 6).all fun i => r.mask.getLsbD (26 + i)) = true := by
    decide
  rw [List.all_eq_true] at hall
  have hb := hall r hr
  simp only [List.all_eq_true, List.mem_range] at hb
  refine (field_eq_iff (by omega) w r.pattern).2 fun i h1 h2 => ?_
  have := hb (i - 26) (by omega)
  rw [show 26 + (i - 26) = i by omega] at this
  rw [Row.matches, beq_iff_eq] at hm
  rw [← hm, BitVec.getLsbD_and, this, Bool.and_true]

/-- No two rows have the same opcode (rule R93). -/
theorem rows_distinct {r r' : Row} (hr : r ∈ opcodeMap) (hr' : r' ∈ opcodeMap)
    (h : opcodeOf r.pattern = opcodeOf r'.pattern) : r = r' := by
  have hn : (opcodeMap.map fun r => opcodeOf r.pattern).Nodup := by decide
  exact List.inj_on_of_nodup_map hn hr hr' h

/-- The row that matches is the row that decodes (rule R94). -/
theorem decodeWord_of_row {r : Row} (hr : r ∈ opcodeMap) {w : Word} (hm : r.matches w = true) :
    decodeWord w = .ok (r.build w) := by
  unfold decodeWord
  cases hf : opcodeMap.find? (fun r => r.matches w) with
  | none => exact absurd hm (by simpa using List.find?_eq_none.1 hf r hr)
  | some r' =>
    have hm' : r'.matches w = true := by simpa using List.find?_some hf
    have hr' : r' ∈ opcodeMap := List.mem_of_find?_eq_some hf
    rw [rows_distinct hr' hr ((row_opcode hr' hm').symm.trans (row_opcode hr hm))]

/-- What decodeWord answers when it answers an instruction (rule R94). -/
theorem decodeWord_ok {w : Word} {i : Instr} (h : decodeWord w = .ok i) :
    ∃ r ∈ opcodeMap, r.matches w = true ∧ i = r.build w := by
  unfold decodeWord at h
  split at h
  · next r hf =>
    exact ⟨r, List.mem_of_find?_eq_some hf, by simpa using List.find?_some hf,
      by simpa using h.symm⟩
  · split at h <;> simp at h

/-- What decodeWord answers when it answers no instruction (rules R91, R92). -/
theorem decodeWord_error {w : Word} {e : Illegal} (h : decodeWord w = .error e) :
    (∀ r ∈ opcodeMap, r.matches w = false) ∧
      (e = .mustBeZero ↔ ∃ r ∈ opcodeMap, opcodeOf r.pattern = opcodeOf w) := by
  unfold decodeWord at h
  split at h
  · simp at h
  · next hf =>
    refine ⟨fun r hr => by simpa using List.find?_eq_none.1 hf r hr, ?_⟩
    split at h <;> rename_i hc <;> simp only [Except.error.injEq] at h <;> subst h <;>
      simpa using hc

/-! ## Fields of an encoded word -/

theorem regField_val (w : Word) (lo : Nat) : (regField w lo).val = w.toNat / 2 ^ lo % 16 := by
  simp [regField, field_eq]

theorem formatR_toNat {op rd ra rb rc : Nat} (h0 : op < 64) (h1 : rd < 16) (h2 : ra < 16)
    (h3 : rb < 16) (h4 : rc < 16) : (formatR op rd ra rb rc).toNat =
      op * 2 ^ 26 + rd * 2 ^ 22 + ra * 2 ^ 18 + rb * 2 ^ 14 + rc * 2 ^ 10 := by
  simp only [formatR, BitVec.toNat_ofNat]
  omega

theorem formatI_toNat {op rd imm : Nat} (h0 : op < 64) (h1 : rd < 16) (h2 : imm < 65536) :
    (formatI op rd imm).toNat = op * 2 ^ 26 + rd * 2 ^ 22 + imm := by
  simp only [formatI, BitVec.toNat_ofNat]
  omega

theorem formatB_toNat {op ra rb off : Nat} (h0 : op < 64) (h1 : ra < 16) (h2 : rb < 16)
    (h3 : off < 65536) :
    (formatB op ra rb off).toNat = op * 2 ^ 26 + ra * 2 ^ 22 + rb * 2 ^ 18 + off := by
  simp only [formatB, BitVec.toNat_ofNat]
  omega

theorem formatJ_toNat {op tgt : Nat} (h0 : op < 64) (h1 : tgt < 65536) :
    (formatJ op tgt).toNat = op * 2 ^ 26 + tgt := by
  simp only [formatJ, BitVec.toNat_ofNat]
  omega

theorem formatN_toNat {op : Nat} (h0 : op < 64) : (formatN op).toNat = op * 2 ^ 26 := by
  simp only [formatN, BitVec.toNat_ofNat]
  omega

theorem bits16_lt (v : Nat) : bits16 v < 65536 := Nat.mod_lt _ (by omega)

theorem offBits_lt (v : Int) : offBits v < 65536 := by
  simp only [offBits]
  omega

theorem zext16_eq (w : Word) : zext16 w = w.toNat % 65536 := by
  simp [zext16, field_eq]

theorem sext16_eq (w : Word) : sext16 w =
    if w.toNat % 65536 < 32768 then (w.toNat % 65536 : Int) else (w.toNat % 65536 : Int) - 65536 := by
  simp only [sext16, field_eq]
  norm_num
  split <;> split <;> omega

end Sys2Proof
end

