-- ==== Sys2Proof/Laws/Memory.lean ====
section
/-! SUPPORT. The laws of IMEM: what reads after a write, and that every write keeps the canonical
form and the window. -/

namespace Sys2Proof.Machine

@[simp] theorem Memory.read_nil (a : Nat) : Memory.read [] a = 0#8 := rfl

/-! ## The canonical form -/

theorem Memory.wfFrom_cons {lo k : Nat} {b : Byte} {rest : Memory} :
    Memory.wfFrom lo ((k, b) :: rest) = true ↔
      lo ≤ k ∧ b ≠ 0#8 ∧ Memory.wfFrom (k + 1) rest = true := by
  simp [Memory.wfFrom, and_assoc]

theorem Memory.wfFrom_mono {lo lo' : Nat} (h : lo' ≤ lo) :
    ∀ {m : Memory}, Memory.wfFrom lo m = true → Memory.wfFrom lo' m = true
  | [], _ => rfl
  | (_, _) :: _, hm => by
    obtain ⟨h1, h2, h3⟩ := Memory.wfFrom_cons.1 hm
    exact Memory.wfFrom_cons.2 ⟨h.trans h1, h2, h3⟩

/-- An offset below every listed one reads 0. -/
theorem Memory.read_below {lo a : Nat} (h : a < lo) :
    ∀ {m : Memory}, Memory.wfFrom lo m = true → m.read a = 0#8
  | [], _ => rfl
  | (k, _) :: rest, hm => by
    obtain ⟨h1, _, h3⟩ := Memory.wfFrom_cons.1 hm
    have hk : k ≠ a := by omega
    simp [Memory.read, hk, Memory.read_below (by omega : a < k + 1) h3]

theorem Memory.wfFrom_write {lo a : Nat} (b : Byte) (ha : lo ≤ a) :
    ∀ {m : Memory}, Memory.wfFrom lo m = true → Memory.wfFrom lo (m.write a b) = true
  | [], _ => by
    by_cases hb : b = 0#8
    · simp [Memory.write, hb, Memory.wfFrom]
    · simp [Memory.write, hb, Memory.wfFrom, ha]
  | (k, c) :: rest, hm => by
    obtain ⟨h1, h2, h3⟩ := Memory.wfFrom_cons.1 hm
    rcases Nat.lt_trichotomy k a with hk | hk | hk
    · simp only [Memory.write, hk, if_true]
      exact Memory.wfFrom_cons.2 ⟨h1, h2, Memory.wfFrom_write b (by omega) h3⟩
    · subst hk
      by_cases hb : b = 0#8
      · simp [Memory.write, hb, Memory.wfFrom_mono (by omega : lo ≤ k + 1) h3]
      · simp only [Memory.write, lt_irrefl, hb, if_false, if_true]
        exact Memory.wfFrom_cons.2 ⟨h1, hb, h3⟩
    · have hn : ¬ k < a := by omega
      have hne : k ≠ a := by omega
      by_cases hb : b = 0#8
      · simp only [Memory.write, hn, hne, hb, if_false, if_true]; exact hm
      · simp only [Memory.write, hn, hne, hb, if_false]
        exact Memory.wfFrom_cons.2 ⟨ha, hb, Memory.wfFrom_cons.2 ⟨by omega, h2, h3⟩⟩

/-- A write keeps the canonical form. -/
theorem Memory.wf_write {m : Memory} (h : m.wf = true) (a : Nat) (b : Byte) :
    (m.write a b).wf = true := Memory.wfFrom_write b (Nat.zero_le a) h

/-- A word write keeps the canonical form. -/
theorem Memory.wf_writeWord {m : Memory} (h : m.wf = true) (a : Nat) (v : Word) :
    (m.writeWord a v).wf = true := by
  simp only [Memory.writeWord]
  exact Memory.wf_write (Memory.wf_write (Memory.wf_write (Memory.wf_write h _ _) _ _) _ _) _ _

/-! ## Reading after a write -/

/-- A write leaves every other byte alone. -/
theorem Memory.read_write_other {a a' : Nat} (h : a' ≠ a) (b : Byte) :
    ∀ m : Memory, (m.write a b).read a' = m.read a'
  | [] => by
    by_cases hb : b = 0#8
    · simp [Memory.write, hb]
    · simp [Memory.write, hb, Memory.read, h.symm]
  | (k, c) :: rest => by
    rcases Nat.lt_trichotomy k a with hk | hk | hk
    · simp [Memory.write, hk, Memory.read, Memory.read_write_other h b rest]
    · subst hk
      by_cases hb : b = 0#8 <;> simp [Memory.write, hb, Memory.read, h.symm]
    · have hn : ¬ k < a := by omega
      have hne : k ≠ a := by omega
      by_cases hb : b = 0#8 <;> simp [Memory.write, hn, hne, hb, Memory.read, h.symm]

theorem Memory.read_write_same_from {lo a : Nat} (b : Byte) :
    ∀ {m : Memory}, Memory.wfFrom lo m = true → (m.write a b).read a = b
  | [], _ => by
    by_cases hb : b = 0#8
    · simp [Memory.write, hb]
    · simp [Memory.write, hb, Memory.read]
  | (k, c) :: rest, hm => by
    obtain ⟨_, _, h3⟩ := Memory.wfFrom_cons.1 hm
    rcases Nat.lt_trichotomy k a with hk | hk | hk
    · have hne : k ≠ a := by omega
      simp [Memory.write, hk, Memory.read, hne, Memory.read_write_same_from b h3]
    · subst hk
      by_cases hb : b = 0#8
      · simp [Memory.write, hb, Memory.read_below (Nat.lt_succ_self k) h3]
      · simp [Memory.write, hb, Memory.read]
    · have hn : ¬ k < a := by omega
      have hne : k ≠ a := by omega
      by_cases hb : b = 0#8
      · simp [Memory.write, hn, hne, hb, Memory.read,
          Memory.read_below (by omega : a < k + 1) h3]
      · simp [Memory.write, hn, hne, hb, Memory.read]

/-- A byte reads as it was written. -/
theorem Memory.read_write_same {m : Memory} (h : m.wf = true) (a : Nat) (b : Byte) :
    (m.write a b).read a = b := Memory.read_write_same_from b h

theorem Memory.read_write {m : Memory} (h : m.wf = true) (a a' : Nat) (b : Byte) :
    (m.write a b).read a' = if a' = a then b else m.read a' := by
  by_cases e : a' = a
  · simp [e, Memory.read_write_same h]
  · simp [e, Memory.read_write_other e]

/-- A word write leaves every byte outside its four alone. -/
theorem Memory.read_writeWord_other {a a' : Nat} (h : a' < a ∨ a + 4 ≤ a') (m : Memory) (v : Word) :
    (m.writeWord a v).read a' = m.read a' := by
  simp only [Memory.writeWord]
  rw [Memory.read_write_other (by omega), Memory.read_write_other (by omega),
    Memory.read_write_other (by omega), Memory.read_write_other (by omega)]

/-- A word write leaves its four byte lanes. -/
theorem Memory.read_writeWord_lane {m : Memory} (h : m.wf = true) (a : Nat) (v : Word) {j : Nat}
    (hj : j < 4) : (m.writeWord a v).read (a + j) = byteLane v j := by
  have h1 := Memory.wf_write h a (byteLane v 0)
  have h2 := Memory.wf_write h1 (a + 1) (byteLane v 1)
  have h3 := Memory.wf_write h2 (a + 2) (byteLane v 2)
  simp only [Memory.writeWord, Memory.read_write h3, Memory.read_write h2, Memory.read_write h1,
    Memory.read_write h]
  interval_cases j <;> simp

/-- The four byte lanes of a word make the word. -/
theorem byteLanes_append (v : Word) :
    byteLane v 3 ++ byteLane v 2 ++ byteLane v 1 ++ byteLane v 0 = v := by
  apply BitVec.eq_of_getLsbD_eq
  intro i hi
  simp only [byteLane, BitVec.getLsbD_append, BitVec.getLsbD_extractLsb']
  rcases Nat.lt_or_ge i 8 with h1 | h1
  · simp [h1]
  rcases Nat.lt_or_ge i 16 with h2 | h2
  · simp [show ¬ i < 8 by omega, show i - 8 < 8 by omega, show 8 + (i - 8) = i by omega]
  rcases Nat.lt_or_ge i 24 with h3 | h3
  · simp [show ¬ i < 8 by omega, show ¬ i - 8 < 8 by omega, show i - 8 - 8 < 8 by omega,
      show 16 + (i - 8 - 8) = i by omega]
  · simp [show ¬ i < 8 by omega, show ¬ i - 8 < 8 by omega, show ¬ i - 8 - 8 < 8 by omega,
      show i - 8 - 8 - 8 < 8 by omega, show 24 + (i - 8 - 8 - 8) = i by omega]

/-- A word reads as it was written. -/
theorem Memory.readWord_writeWord_same {m : Memory} (h : m.wf = true) (a : Nat) (v : Word) :
    (m.writeWord a v).readWord a = v := by
  have h0 := Memory.read_writeWord_lane h a v (j := 0) (by omega)
  have h1 := Memory.read_writeWord_lane h a v (j := 1) (by omega)
  have h2 := Memory.read_writeWord_lane h a v (j := 2) (by omega)
  have h3 := Memory.read_writeWord_lane h a v (j := 3) (by omega)
  rw [Nat.add_zero] at h0
  simp only [Memory.readWord, h0, h1, h2, h3]
  exact byteLanes_append v

/-- A word write leaves every word at a distance of four or more alone. -/
theorem Memory.readWord_writeWord_other {a a' : Nat} (h : a' + 4 ≤ a ∨ a + 4 ≤ a') (m : Memory)
    (v : Word) : (m.writeWord a v).readWord a' = m.readWord a' := by
  simp only [Memory.readWord]
  rw [Memory.read_writeWord_other (by omega), Memory.read_writeWord_other (by omega),
    Memory.read_writeWord_other (by omega), Memory.read_writeWord_other (by omega)]

/-! ## Equal reads, equal memories -/

theorem Memory.ext_from {lo : Nat} : ∀ {m m' : Memory}, Memory.wfFrom lo m = true →
    Memory.wfFrom lo m' = true → (∀ a, m.read a = m'.read a) → m = m'
  | [], [], _, _, _ => rfl
  | [], (k, b) :: rest, _, h', e => by
    have := e k
    simp only [Memory.read, if_true] at this
    exact absurd this.symm (Memory.wfFrom_cons.1 h').2.1
  | (k, b) :: rest, [], h, _, e => by
    have := e k
    simp only [Memory.read, if_true] at this
    exact absurd this (Memory.wfFrom_cons.1 h).2.1
  | (k, b) :: rest, (k', b') :: rest', h, h', e => by
    obtain ⟨_, hb, hr⟩ := Memory.wfFrom_cons.1 h
    obtain ⟨_, hb', hr'⟩ := Memory.wfFrom_cons.1 h'
    have hk : k = k' := by
      rcases Nat.lt_trichotomy k k' with hlt | heq | hgt
      · have := e k
        rw [show Memory.read ((k, b) :: rest) k = b by simp [Memory.read],
          Memory.read_below (lo := k + 1) (by omega) (Memory.wfFrom_cons.2 ⟨by omega, hb', hr'⟩)]
          at this
        exact absurd this hb
      · exact heq
      · have := e k'
        rw [show Memory.read ((k', b') :: rest') k' = b' by simp [Memory.read],
          Memory.read_below (lo := k' + 1) (by omega) (Memory.wfFrom_cons.2 ⟨by omega, hb, hr⟩)]
          at this
        exact absurd this.symm hb'
    subst hk
    have hbb : b = b' := by simpa [Memory.read] using e k
    subst hbb
    have : rest = rest' := Memory.ext_from hr hr' (by
      intro a
      by_cases ha : a = k
      · subst ha
        rw [Memory.read_below (Nat.lt_succ_self _) hr, Memory.read_below (Nat.lt_succ_self _) hr']
      · simpa [Memory.read, Ne.symm ha] using e a)
    rw [this]

/-- Two canonical memories that read alike are the same list. -/
theorem Memory.ext {m m' : Memory} (h : m.wf = true) (h' : m'.wf = true)
    (e : ∀ a, m.read a = m'.read a) : m = m' := Memory.ext_from h h' e

/-- Writing a word twice is writing it once. -/
theorem Memory.writeWord_idem {m : Memory} (h : m.wf = true) (a : Nat) (v : Word) :
    (m.writeWord a v).writeWord a v = m.writeWord a v := by
  have h1 := Memory.wf_writeWord h a v
  refine Memory.ext (Memory.wf_writeWord h1 a v) h1 fun a' => ?_
  by_cases ha : a' < a ∨ a + 4 ≤ a'
  · rw [Memory.read_writeWord_other ha]
  · obtain ⟨j, rfl⟩ : ∃ j, a' = a + j := ⟨a' - a, by omega⟩
    rw [Memory.read_writeWord_lane h1 a v (by omega), Memory.read_writeWord_lane h a v (by omega)]

/-! ## The window -/

theorem Memory.inImem_write {p : Params} {a : Nat} (b : Byte)
    (ha : Config.imemOffset ≤ a ∧ a < Config.imemOffset + 4 * p.imemWords) :
    ∀ {m : Memory}, m.inImem p = true → (m.write a b).inImem p = true
  | [], _ => by
    by_cases hb : b = 0#8
    · simp [Memory.write, hb, Memory.inImem]
    · simp [Memory.write, hb, Memory.inImem, ha]
  | (k, c) :: rest, hm => by
    have hc : (Config.imemOffset ≤ k ∧ k < Config.imemOffset + 4 * p.imemWords) ∧
        Memory.inImem p rest = true := by simpa [Memory.inImem] using hm
    have hcons : ∀ (k' : Nat) (c' : Byte) (m' : Memory),
        (Config.imemOffset ≤ k' ∧ k' < Config.imemOffset + 4 * p.imemWords) →
        Memory.inImem p m' = true → Memory.inImem p ((k', c') :: m') = true := by
      intro k' c' m' h1 h2
      simpa [Memory.inImem] using ⟨h1, by simpa [Memory.inImem] using h2⟩
    unfold Memory.write
    split
    · exact hcons _ _ _ hc.1 (Memory.inImem_write b ha hc.2)
    · split
      · split
        · exact hc.2
        · exact hcons _ _ _ ha hc.2
      · split
        · exact hm
        · exact hcons _ _ _ ha hm

/-- Writing IMEM[i] keeps IMEM inside its window. -/
theorem Memory.inImem_writeWord {p : Params} {m : Memory} (h : m.inImem p = true) {i : Nat}
    (hi : i < p.imemWords) (v : Word) : (m.writeWord (imemAddr i) v).inImem p = true := by
  have hb : ∀ j, j < 4 → Config.imemOffset ≤ imemAddr i + j ∧
      imemAddr i + j < Config.imemOffset + 4 * p.imemWords := by
    intro j hj
    simp only [imemAddr]
    omega
  simp only [Memory.writeWord]
  exact Memory.inImem_write _ (hb 3 (by omega)) (Memory.inImem_write _ (hb 2 (by omega))
    (Memory.inImem_write _ (hb 1 (by omega)) (Memory.inImem_write _ (hb 0 (by omega)) h)))

end Sys2Proof.Machine
end

