-- ==== Sys2Proof/Laws/Numeric.lean ====
section
/-! SUPPORT. What the evaluated integer functions compute: powMod is `(b ^ e) mod m`, modInv is the
inverse of rule R10, and the Montgomery product is the one number below m that times 2^W is the
product. -/

namespace Sys2Proof.Machine

/-! ## The width -/

/-- `fits(v)` is v < 2^W (rule R9). -/
theorem fits_iff (p : Params) (v : Nat) : fits p v = true ↔ v < 2 ^ p.width := by
  simp [fits, Nat.shiftRight_eq_div_pow, Nat.div_eq_zero_iff]

/-! ## Exponentiation -/

theorem powModLoop_eq (m : Nat) : ∀ (n b e acc : Nat), e < 2 ^ n → acc % m = acc →
    powModLoop n b e m acc = acc * b ^ e % m
  | 0, b, e, acc, he, ha => by
    have : e = 0 := by simpa using he
    subst this
    simp [powModLoop, ha]
  | n + 1, b, e, acc, he, ha => by
    have he2 : e / 2 < 2 ^ n := by rw [Nat.pow_succ] at he; omega
    rw [powModLoop, powModLoop_eq m n _ _ _ he2 (by split <;> simp [ha])]
    rcases Nat.mod_two_eq_zero_or_one e with h | h
    · rw [if_neg (by omega), Nat.mul_mod, ← Nat.pow_mod, ← Nat.mul_mod, ← Nat.pow_two, ← Nat.pow_mul]
      rw [show 2 * (e / 2) = e by omega]
    · rw [if_pos h, Nat.mul_mod, Nat.mod_mod, ← Nat.pow_mod, ← Nat.mul_mod, Nat.mul_assoc,
        ← Nat.pow_two, ← Nat.pow_mul, ← Nat.pow_succ']
      rw [show (2 * (e / 2)).succ = e by omega]

/-- The value MODPOW writes (rule R121). -/
theorem powMod_eq (b e m : Nat) : powMod b e m = b ^ e % m := by
  rw [powMod, powModLoop_eq m _ _ _ _ Nat.lt_log2_self (Nat.mod_mod 1 m), Nat.mul_mod,
    Nat.mod_mod, ← Nat.pow_mod, ← Nat.mul_mod, Nat.one_mul]

/-! ## The Euclidean loop -/

/-- With enough turns the loop ends at the gcd, and its coefficient stays a Bezout coefficient. -/
theorem euclidLoop_spec (a m : Int) : ∀ (n r0 r1 : Nat) (t0 t1 : Int), r1 < r0 → r0 * r1 < 2 ^ n →
    m ∣ t0 * a - r0 → m ∣ t1 * a - r1 →
    (euclidLoop n r0 r1 t0 t1).1 = Nat.gcd r0 r1 ∧
      m ∣ (euclidLoop n r0 r1 t0 t1).2 * a - (euclidLoop n r0 r1 t0 t1).1
  | 0, r0, r1, t0, t1, hlt, hp, h0, _ => by
    have hr : r1 = 0 := by
      rcases Nat.eq_zero_or_pos r1 with h | h
      · exact h
      · have : 0 < r0 * r1 := Nat.mul_pos (by omega) h
        simp at hp
        omega
    subst hr
    simpa [euclidLoop] using h0
  | n + 1, r0, r1, t0, t1, hlt, hp, h0, h1 => by
    rw [euclidLoop]
    split
    · next hr => subst hr; simpa using h0
    · next hr =>
      have hpos : 0 < r1 := Nat.pos_of_ne_zero hr
      have hmod : r0 % r1 < r1 := Nat.mod_lt _ hpos
      have hdiv := Nat.div_add_mod r0 r1
      have hq : 1 ≤ r0 / r1 := (Nat.one_le_div_iff hpos).2 hlt.le
      have hhalf : 2 * (r0 % r1) < r0 + 1 := by
        have : r1 * 1 ≤ r1 * (r0 / r1) := Nat.mul_le_mul_left _ hq
        omega
      have hprod : r1 * (r0 % r1) < 2 ^ n := by
        have h2 : r1 * (2 * (r0 % r1)) ≤ r1 * r0 := Nat.mul_le_mul_left _ (by omega)
        rw [Nat.pow_succ] at hp
        have e1 : r1 * (2 * (r0 % r1)) = 2 * (r1 * (r0 % r1)) := by ring
        have e2 : r1 * r0 = r0 * r1 := Nat.mul_comm _ _
        omega
      have hnew : m ∣ (t0 - ((r0 / r1 : Nat) : Int) * t1) * a - ((r0 % r1 : Nat) : Int) := by
        have hd : ((r0 % r1 : Nat) : Int) = r0 - r1 * ((r0 / r1 : Nat) : Int) := by
          rw [eq_sub_iff_add_eq]
          exact_mod_cast (by omega : r0 % r1 + r1 * (r0 / r1) = r0)
        rw [hd]
        have := Int.dvd_sub h0 (Dvd.dvd.mul_left h1 ((r0 / r1 : Nat) : Int))
        convert this using 1
        ring
      obtain ⟨g, d⟩ := euclidLoop_spec a m n r1 (r0 % r1) t1 _ hmod hprod h1 hnew
      refine ⟨?_, d⟩
      rw [g, Nat.gcd_comm r1, ← Nat.gcd_rec, Nat.gcd_comm]

/-- The loop on (a mod m, m) ends at gcd(a, m) with t0 * a = gcd(a, m) modulo m (rule R126). -/
theorem euclid_spec (a : Nat) {m : Nat} (hm : 0 < m) :
    (euclid a m).1 = Nat.gcd a m ∧ (m : Int) ∣ (euclid a m).2 * a - (Nat.gcd a m : Nat) := by
  have hlt : a % m < m := Nat.mod_lt _ hm
  have hb : m < 2 ^ (Nat.log2 m + 1) := Nat.lt_log2_self
  have hprod : m * (a % m) < 2 ^ (2 * Nat.log2 m + 2) := by
    rw [show 2 * Nat.log2 m + 2 = (Nat.log2 m + 1) + (Nat.log2 m + 1) by ring, Nat.pow_add]
    exact Nat.mul_lt_mul'' hb (hlt.trans hb)
  have h1 : (m : Int) ∣ 1 * a - ((a % m : Nat) : Int) := by
    refine ⟨((a / m : Nat) : Int), ?_⟩
    have := Nat.div_add_mod a m
    rw [one_mul, sub_eq_iff_eq_add]
    exact_mod_cast this.symm
  obtain ⟨g, d⟩ := euclidLoop_spec a m _ m (a % m) 0 1 hlt hprod (by simp) h1
  have hg : (euclid a m).1 = Nat.gcd a m := by
    rw [euclid, g, Nat.gcd_comm m, ← Nat.gcd_rec, Nat.gcd_comm]
  refine ⟨hg, ?_⟩
  rw [← hg]
  exact d

/-! ## The modular inverse -/

theorem modInv_lt (a : Nat) {m : Nat} (hm : 0 < m) : modInv a m < m := by
  have h := Int.emod_lt_of_pos (euclid a m).2 (by exact_mod_cast hm : (0 : Int) < m)
  have h0 := Int.emod_nonneg (euclid a m).2 (by exact_mod_cast hm.ne' : (m : Int) ≠ 0)
  simp only [modInv]
  omega

/-- modInv is the inverse of rule R10. -/
theorem mul_modInv {a m : Nat} (hm : 0 < m) (hg : Nat.gcd a m = 1) :
    a * modInv a m % m = 1 % m := by
  have hm' : (m : Int) ≠ 0 := by exact_mod_cast hm.ne'
  have hcast : ((modInv a m : Nat) : Int) = (euclid a m).2 % m := by
    simp only [modInv]
    exact Int.toNat_of_nonneg (Int.emod_nonneg _ hm')
  have hd := (euclid_spec a hm).2
  rw [hg] at hd
  have key : ((a : Int) * ((modInv a m : Nat) : Int)) % m = 1 % m := by
    rw [hcast, Int.mul_emod, Int.emod_emod_of_dvd _ (dvd_refl (m : Int)), ← Int.mul_emod, mul_comm]
    exact Int.emod_eq_emod_iff_emod_sub_eq_zero.2 (Int.emod_eq_zero_of_dvd (by simpa using hd))
  exact_mod_cast key

/-- There is only one inverse in [0, m) (rule R10). -/
theorem inverse_unique {a m x y : Nat} (hx : x < m) (hy : y < m)
    (ex : a * x % m = 1 % m) (ey : a * y % m = 1 % m) : x = y := by
  have h : y * (a * x) % m = x * (a * y) % m := by
    congr 1; ring
  rw [Nat.mul_mod, ex, ← Nat.mul_mod, Nat.mul_mod x, ey, ← Nat.mul_mod, Nat.mul_one, Nat.mul_one,
    Nat.mod_eq_of_lt hy, Nat.mod_eq_of_lt hx] at h
  exact h.symm

/-! ## The Montgomery product -/

theorem coprime_two_pow {m : Nat} (hodd : m % 2 = 1) (w : Nat) : Nat.gcd (2 ^ w % m) m = 1 := by
  rw [← Nat.gcd_rec, Nat.gcd_comm]
  have : Nat.Coprime 2 m := Nat.coprime_two_left.2 (Nat.odd_iff.2 hodd)
  exact Nat.Coprime.pow_left w this

theorem montProduct_lt (w a b : Nat) {m : Nat} (hm : 0 < m) : montProduct w a b m < m :=
  Nat.mod_lt _ hm

/-- The Montgomery product times R is the product modulo m (rule R131). -/
theorem montProduct_mul_radix (w a b : Nat) {m : Nat} (hodd : m % 2 = 1) :
    montProduct w a b m * 2 ^ w % m = a * b % m := by
  have hm : 0 < m := by omega
  have h := mul_modInv hm (coprime_two_pow hodd w)
  have hr : 2 ^ w * modInv (2 ^ w % m) m % m = 1 % m := by
    rw [← h, Nat.mod_mul_mod]
  rw [montProduct, Nat.mod_mul_mod, Nat.mul_assoc, Nat.mul_comm (modInv _ _), Nat.mul_mod, hr,
    ← Nat.mul_mod, Nat.mul_one]

/-- The Montgomery product is the only number below m of which that is true. -/
theorem eq_montProduct {w a b m r : Nat} (hodd : m % 2 = 1) (hr : r < m)
    (h : r * 2 ^ w % m = a * b % m) : r = montProduct w a b m := by
  have hm : 0 < m := by omega
  have h' := montProduct_mul_radix w a b hodd
  have hmod : r * 2 ^ w ≡ montProduct w a b m * 2 ^ w [MOD m] := h.trans h'.symm
  have hc : Nat.gcd m (2 ^ w) = 1 := by
    have := coprime_two_pow hodd w
    rwa [← Nat.gcd_rec] at this
  have := Nat.ModEq.cancel_right_of_coprime hc hmod
  rwa [Nat.ModEq, Nat.mod_eq_of_lt hr, Nat.mod_eq_of_lt (montProduct_lt w a b hm)] at this

/-! ## Limbs -/

theorem limb_toNat (v k : Nat) : (limb v k).toNat = v / 2 ^ (32 * k) % 2 ^ 32 := by
  simp [limb, Nat.shiftRight_eq_div_pow]

/-- A value is its low limbs and what stands above them. -/
theorem mod_pow_succ_limb (v k : Nat) :
    v % 2 ^ (32 * (k + 1)) = v % 2 ^ (32 * k) + (limb v k).toNat * 2 ^ (32 * k) := by
  rw [limb_toNat, Nat.mul_succ, Nat.pow_add, Nat.mod_mul,
    Nat.mul_comm (2 ^ (32 * k))]

/-- A register value is the sum of its limbs (rule R52). -/
theorem sum_limbs (v : Nat) : ∀ n : Nat,
    v % 2 ^ (32 * n) = ((List.range n).map fun k => (limb v k).toNat * 2 ^ (32 * k)).sum
  | 0 => by simp [Nat.mod_one]
  | n + 1 => by
    rw [mod_pow_succ_limb, sum_limbs v n, List.range_succ]
    simp

/-- Replacing a limb keeps a value inside the width (rule R69). -/
theorem setLimb_lt {v k n : Nat} (hv : v < 2 ^ (32 * n)) (hk : k < n) (w : Word) :
    setLimb v k w < 2 ^ (32 * n) := by
  have hlow : v % 2 ^ (32 * k) < 2 ^ (32 * k) := Nat.mod_lt _ (by positivity)
  have hw : w.toNat + 1 ≤ 2 ^ 32 := w.isLt
  have hhigh : v >>> (32 * (k + 1)) + 1 ≤ 2 ^ (32 * (n - (k + 1))) := by
    rw [Nat.shiftRight_eq_div_pow]
    apply Nat.div_lt_of_lt_mul
    rw [← Nat.pow_add]
    rwa [show 32 * (k + 1) + 32 * (n - (k + 1)) = 32 * n by omega]
  have h1 : w.toNat * 2 ^ (32 * k) + 2 ^ (32 * k) ≤ 2 ^ (32 * (k + 1)) := by
    rw [show 32 * (k + 1) = 32 * k + 32 by ring, Nat.pow_add,
      show w.toNat * 2 ^ (32 * k) + 2 ^ (32 * k) = 2 ^ (32 * k) * (w.toNat + 1) by ring]
    exact Nat.mul_le_mul_left _ hw
  have h2 : v >>> (32 * (k + 1)) * 2 ^ (32 * (k + 1)) + 2 ^ (32 * (k + 1)) ≤ 2 ^ (32 * n) := by
    have := Nat.mul_le_mul_right (2 ^ (32 * (k + 1))) hhigh
    rw [← Nat.pow_add, show 32 * (n - (k + 1)) + 32 * (k + 1) = 32 * n by omega] at this
    linarith
  simp only [setLimb]
  omega

theorem div_mod_of_mod_eq {u v q : Nat} (r s : Nat) (h : u % (q * r * s) = v % (q * r * s)) :
    u / q % r = v / q % r := by
  have e : ∀ x, x / q % r = x % (q * r * s) / q % r := by
    intro x
    rw [Nat.mul_assoc, Nat.mod_mul_right_div_self, Nat.mod_mul_right_mod]
  rw [e u, e v, h]

/-- The limbs of a value with one limb replaced (rule R69). -/
theorem limb_setLimb (v k : Nat) (w : Word) (j : Nat) :
    limb (setLimb v k w) j = if j = k then w else limb v j := by
  have hlow : v % 2 ^ (32 * k) < 2 ^ (32 * k) := Nat.mod_lt _ (by positivity)
  have hpos : 0 < 2 ^ (32 * k) := by positivity
  have hw : w.toNat < 2 ^ 32 := w.isLt
  have hsplit : setLimb v k w = v % 2 ^ (32 * k) + 2 ^ (32 * k) * (w.toNat +
      2 ^ 32 * (v / (2 ^ (32 * k) * 2 ^ 32))) := by
    simp only [setLimb]
    rw [Nat.shiftRight_eq_div_pow, Nat.mul_succ, Nat.pow_add]
    ring
  generalize setLimb v k w = u at hsplit
  have hdiv : u / 2 ^ (32 * k) = w.toNat + 2 ^ 32 * (v / (2 ^ (32 * k) * 2 ^ 32)) := by
    rw [hsplit, Nat.add_mul_div_left _ _ hpos, Nat.div_eq_of_lt hlow, Nat.zero_add]
  apply BitVec.eq_of_toNat_eq
  rcases Nat.lt_trichotomy j k with h | h | h
  · rw [if_neg (by omega), limb_toNat, limb_toNat]
    apply div_mod_of_mod_eq _ (2 ^ (32 * (k - j - 1)))
    rw [← Nat.pow_add, ← Nat.pow_add, show 32 * j + 32 + 32 * (k - j - 1) = 32 * k by omega, hsplit,
      Nat.add_mul_mod_self_left, Nat.mod_mod]
  · subst h
    rw [if_pos rfl, limb_toNat, hdiv, Nat.add_mul_mod_self_left, Nat.mod_eq_of_lt hw]
  · rw [if_neg (by omega), limb_toNat, limb_toNat]
    have hd : u / (2 ^ (32 * k) * 2 ^ 32) = v / (2 ^ (32 * k) * 2 ^ 32) := by
      rw [← Nat.div_div_eq_div_mul, hdiv, Nat.add_mul_div_left _ _ (by positivity),
        Nat.div_eq_of_lt hw, Nat.zero_add]
    have e : ∀ x, x / 2 ^ (32 * j) = x / (2 ^ (32 * k) * 2 ^ 32) / 2 ^ (32 * (j - k - 1)) := by
      intro x
      rw [Nat.div_div_eq_div_mul, ← Nat.pow_add, ← Nat.pow_add,
        show 32 * k + 32 + 32 * (j - k - 1) = 32 * j by omega]
    rw [e u, e v, hd]

/-- Setting a limb twice is setting it once. -/
theorem setLimb_setLimb (v k : Nat) (w : Word) : setLimb (setLimb v k w) k w = setLimb v k w := by
  have hlow : v % 2 ^ (32 * k) < 2 ^ (32 * k) := Nat.mod_lt _ (by positivity)
  have hw : w.toNat < 2 ^ 32 := w.isLt
  have hsplit : 2 ^ (32 * (k + 1)) = 2 ^ (32 * k) * 2 ^ 32 := by rw [Nat.mul_succ, Nat.pow_add]
  simp only [setLimb, Nat.shiftRight_eq_div_pow, hsplit]
  generalize 2 ^ (32 * k) = q at *
  generalize v / (q * 2 ^ 32) = h
  generalize v % q = l at *
  have e : l + w.toNat * q + h * (q * 2 ^ 32) = l + q * (w.toNat + 2 ^ 32 * h) := by ring
  have h1 : (l + q * (w.toNat + 2 ^ 32 * h)) % q = l := by
    rw [Nat.add_mul_mod_self_left, Nat.mod_eq_of_lt hlow]
  have h2 : (l + q * (w.toNat + 2 ^ 32 * h)) / (q * 2 ^ 32) = h := by
    rw [← Nat.div_div_eq_div_mul, Nat.add_mul_div_left _ _ (by omega), Nat.div_eq_of_lt hlow]
    omega
  rw [e, h1, h2, ← e]

end Sys2Proof.Machine
end

