-- ==== Sys2Proof/Laws/State.lean ====
section
/-! SUPPORT. One lemma for each field of each update of State, so that no later proof unfolds a record
update, and what a register reads after a register is written. -/

namespace Sys2Proof.Machine

/-! ## Registers -/

@[simp] theorem reg_setReg_same (r : Reg) (v : Nat) (s : State) : (s.setReg r v).reg r = v := by
  simp [State.reg, State.setReg]

theorem reg_setReg_other {r r' : Reg} (h : r' ≠ r) (v : Nat) (s : State) :
    (s.setReg r v).reg r' = s.reg r' := by
  have : r.val ≠ r'.val := fun e => h (Fin.ext e.symm)
  simp [State.reg, State.setReg, this]

theorem reg_setReg (r r' : Reg) (v : Nat) (s : State) :
    (s.setReg r v).reg r' = if r' = r then v else s.reg r' := by
  by_cases h : r' = r
  · simp [h]
  · simp [h, reg_setReg_other h]

/-- Registers are read from `x` alone. -/
theorem reg_congr {s t : State} (h : t.x = s.x) (r : Reg) : t.reg r = s.reg r := by
  simp [State.reg, h]

theorem reg_of_zeroes {s : State} (h : s.x = Vector.replicate 16 0) (r : Reg) : s.reg r = 0 := by
  simp [State.reg, h]


/-! ## One lemma per field per update -/

@[simp] theorem setReg_params (r : Reg) (v : Nat) (s : State) : (s.setReg r v).params = s.params := rfl
@[simp] theorem setReg_x (r : Reg) (v : Nat) (s : State) : (s.setReg r v).x = s.x.set r.val v := rfl
@[simp] theorem setReg_imem (r : Reg) (v : Nat) (s : State) : (s.setReg r v).imem = s.imem := rfl
@[simp] theorem setReg_pc (r : Reg) (v : Nat) (s : State) : (s.setReg r v).pc = s.pc := rfl
@[simp] theorem setReg_busy (r : Reg) (v : Nat) (s : State) : (s.setReg r v).busy = s.busy := rfl
@[simp] theorem setReg_done (r : Reg) (v : Nat) (s : State) : (s.setReg r v).done = s.done := rfl
@[simp] theorem setReg_fault (r : Reg) (v : Nat) (s : State) : (s.setReg r v).fault = s.fault := rfl
@[simp] theorem setReg_werr (r : Reg) (v : Nat) (s : State) : (s.setReg r v).werr = s.werr := rfl
@[simp] theorem setReg_irqEn (r : Reg) (v : Nat) (s : State) : (s.setReg r v).irqEn = s.irqEn := rfl
@[simp] theorem setReg_cause (r : Reg) (v : Nat) (s : State) : (s.setReg r v).cause = s.cause := rfl
@[simp] theorem setReg_fpc (r : Reg) (v : Nat) (s : State) : (s.setReg r v).fpc = s.fpc := rfl
@[simp] theorem setReg_finsn (r : Reg) (v : Nat) (s : State) : (s.setReg r v).finsn = s.finsn := rfl
@[simp] theorem setReg_env (r : Reg) (v : Nat) (s : State) : (s.setReg r v).env = s.env := rfl
@[simp] theorem setReg_replies (r : Reg) (v : Nat) (s : State) : (s.setReg r v).replies = s.replies := rfl

@[simp] theorem setImemWord_params (i : Nat) (v : Word) (s : State) : (State.setImemWord i v s).params = s.params := rfl
@[simp] theorem setImemWord_x (i : Nat) (v : Word) (s : State) : (State.setImemWord i v s).x = s.x := rfl
@[simp] theorem setImemWord_imem (i : Nat) (v : Word) (s : State) : (State.setImemWord i v s).imem = s.imem.writeWord (imemAddr i) v := rfl
@[simp] theorem setImemWord_pc (i : Nat) (v : Word) (s : State) : (State.setImemWord i v s).pc = s.pc := rfl
@[simp] theorem setImemWord_busy (i : Nat) (v : Word) (s : State) : (State.setImemWord i v s).busy = s.busy := rfl
@[simp] theorem setImemWord_done (i : Nat) (v : Word) (s : State) : (State.setImemWord i v s).done = s.done := rfl
@[simp] theorem setImemWord_fault (i : Nat) (v : Word) (s : State) : (State.setImemWord i v s).fault = s.fault := rfl
@[simp] theorem setImemWord_werr (i : Nat) (v : Word) (s : State) : (State.setImemWord i v s).werr = s.werr := rfl
@[simp] theorem setImemWord_irqEn (i : Nat) (v : Word) (s : State) : (State.setImemWord i v s).irqEn = s.irqEn := rfl
@[simp] theorem setImemWord_cause (i : Nat) (v : Word) (s : State) : (State.setImemWord i v s).cause = s.cause := rfl
@[simp] theorem setImemWord_fpc (i : Nat) (v : Word) (s : State) : (State.setImemWord i v s).fpc = s.fpc := rfl
@[simp] theorem setImemWord_finsn (i : Nat) (v : Word) (s : State) : (State.setImemWord i v s).finsn = s.finsn := rfl
@[simp] theorem setImemWord_env (i : Nat) (v : Word) (s : State) : (State.setImemWord i v s).env = s.env := rfl
@[simp] theorem setImemWord_replies (i : Nat) (v : Word) (s : State) : (State.setImemWord i v s).replies = s.replies := rfl

@[simp] theorem advance_params (s : State) : (advance s).params = s.params := rfl
@[simp] theorem advance_x (s : State) : (advance s).x = s.x := rfl
@[simp] theorem advance_imem (s : State) : (advance s).imem = s.imem := rfl
@[simp] theorem advance_pc (s : State) : (advance s).pc = s.pc + 1 := rfl
@[simp] theorem advance_busy (s : State) : (advance s).busy = s.busy := rfl
@[simp] theorem advance_done (s : State) : (advance s).done = s.done := rfl
@[simp] theorem advance_fault (s : State) : (advance s).fault = s.fault := rfl
@[simp] theorem advance_werr (s : State) : (advance s).werr = s.werr := rfl
@[simp] theorem advance_irqEn (s : State) : (advance s).irqEn = s.irqEn := rfl
@[simp] theorem advance_cause (s : State) : (advance s).cause = s.cause := rfl
@[simp] theorem advance_fpc (s : State) : (advance s).fpc = s.fpc := rfl
@[simp] theorem advance_finsn (s : State) : (advance s).finsn = s.finsn := rfl
@[simp] theorem advance_env (s : State) : (advance s).env = s.env := rfl
@[simp] theorem advance_replies (s : State) : (advance s).replies = s.replies := rfl

@[simp] theorem jumpTo_params (a : BitVec 16) (s : State) : (jumpTo a s).params = s.params := rfl
@[simp] theorem jumpTo_x (a : BitVec 16) (s : State) : (jumpTo a s).x = s.x := rfl
@[simp] theorem jumpTo_imem (a : BitVec 16) (s : State) : (jumpTo a s).imem = s.imem := rfl
@[simp] theorem jumpTo_pc (a : BitVec 16) (s : State) : (jumpTo a s).pc = a := rfl
@[simp] theorem jumpTo_busy (a : BitVec 16) (s : State) : (jumpTo a s).busy = s.busy := rfl
@[simp] theorem jumpTo_done (a : BitVec 16) (s : State) : (jumpTo a s).done = s.done := rfl
@[simp] theorem jumpTo_fault (a : BitVec 16) (s : State) : (jumpTo a s).fault = s.fault := rfl
@[simp] theorem jumpTo_werr (a : BitVec 16) (s : State) : (jumpTo a s).werr = s.werr := rfl
@[simp] theorem jumpTo_irqEn (a : BitVec 16) (s : State) : (jumpTo a s).irqEn = s.irqEn := rfl
@[simp] theorem jumpTo_cause (a : BitVec 16) (s : State) : (jumpTo a s).cause = s.cause := rfl
@[simp] theorem jumpTo_fpc (a : BitVec 16) (s : State) : (jumpTo a s).fpc = s.fpc := rfl
@[simp] theorem jumpTo_finsn (a : BitVec 16) (s : State) : (jumpTo a s).finsn = s.finsn := rfl
@[simp] theorem jumpTo_env (a : BitVec 16) (s : State) : (jumpTo a s).env = s.env := rfl
@[simp] theorem jumpTo_replies (a : BitVec 16) (s : State) : (jumpTo a s).replies = s.replies := rfl

@[simp] theorem retire_params (r : Reg) (v : Nat) (s : State) : (retire r v s).params = s.params := rfl
@[simp] theorem retire_x (r : Reg) (v : Nat) (s : State) : (retire r v s).x = s.x.set r.val v := rfl
@[simp] theorem retire_imem (r : Reg) (v : Nat) (s : State) : (retire r v s).imem = s.imem := rfl
@[simp] theorem retire_pc (r : Reg) (v : Nat) (s : State) : (retire r v s).pc = s.pc + 1 := rfl
@[simp] theorem retire_busy (r : Reg) (v : Nat) (s : State) : (retire r v s).busy = s.busy := rfl
@[simp] theorem retire_done (r : Reg) (v : Nat) (s : State) : (retire r v s).done = s.done := rfl
@[simp] theorem retire_fault (r : Reg) (v : Nat) (s : State) : (retire r v s).fault = s.fault := rfl
@[simp] theorem retire_werr (r : Reg) (v : Nat) (s : State) : (retire r v s).werr = s.werr := rfl
@[simp] theorem retire_irqEn (r : Reg) (v : Nat) (s : State) : (retire r v s).irqEn = s.irqEn := rfl
@[simp] theorem retire_cause (r : Reg) (v : Nat) (s : State) : (retire r v s).cause = s.cause := rfl
@[simp] theorem retire_fpc (r : Reg) (v : Nat) (s : State) : (retire r v s).fpc = s.fpc := rfl
@[simp] theorem retire_finsn (r : Reg) (v : Nat) (s : State) : (retire r v s).finsn = s.finsn := rfl
@[simp] theorem retire_env (r : Reg) (v : Nat) (s : State) : (retire r v s).env = s.env := rfl
@[simp] theorem retire_replies (r : Reg) (v : Nat) (s : State) : (retire r v s).replies = s.replies := rfl

@[simp] theorem takeFault_params (c : Cause) (w : Word) (s : State) : (takeFault c w s).params = s.params := rfl
@[simp] theorem takeFault_x (c : Cause) (w : Word) (s : State) : (takeFault c w s).x = s.x := rfl
@[simp] theorem takeFault_imem (c : Cause) (w : Word) (s : State) : (takeFault c w s).imem = s.imem := rfl
@[simp] theorem takeFault_pc (c : Cause) (w : Word) (s : State) : (takeFault c w s).pc = s.pc := rfl
@[simp] theorem takeFault_busy (c : Cause) (w : Word) (s : State) : (takeFault c w s).busy = false := rfl
@[simp] theorem takeFault_done (c : Cause) (w : Word) (s : State) : (takeFault c w s).done = s.done := rfl
@[simp] theorem takeFault_fault (c : Cause) (w : Word) (s : State) : (takeFault c w s).fault = true := rfl
@[simp] theorem takeFault_werr (c : Cause) (w : Word) (s : State) : (takeFault c w s).werr = s.werr := rfl
@[simp] theorem takeFault_irqEn (c : Cause) (w : Word) (s : State) : (takeFault c w s).irqEn = s.irqEn := rfl
@[simp] theorem takeFault_cause (c : Cause) (w : Word) (s : State) : (takeFault c w s).cause = c.code := rfl
@[simp] theorem takeFault_fpc (c : Cause) (w : Word) (s : State) : (takeFault c w s).fpc = s.pc := rfl
@[simp] theorem takeFault_finsn (c : Cause) (w : Word) (s : State) : (takeFault c w s).finsn = w := rfl
@[simp] theorem takeFault_env (c : Cause) (w : Word) (s : State) : (takeFault c w s).env = s.env := rfl
@[simp] theorem takeFault_replies (c : Cause) (w : Word) (s : State) : (takeFault c w s).replies = s.replies := rfl

@[simp] theorem haltRun_params (s : State) : (haltRun s).params = s.params := rfl
@[simp] theorem haltRun_x (s : State) : (haltRun s).x = s.x := rfl
@[simp] theorem haltRun_imem (s : State) : (haltRun s).imem = s.imem := rfl
@[simp] theorem haltRun_pc (s : State) : (haltRun s).pc = s.pc := rfl
@[simp] theorem haltRun_busy (s : State) : (haltRun s).busy = false := rfl
@[simp] theorem haltRun_done (s : State) : (haltRun s).done = true := rfl
@[simp] theorem haltRun_fault (s : State) : (haltRun s).fault = s.fault := rfl
@[simp] theorem haltRun_werr (s : State) : (haltRun s).werr = s.werr := rfl
@[simp] theorem haltRun_irqEn (s : State) : (haltRun s).irqEn = s.irqEn := rfl
@[simp] theorem haltRun_cause (s : State) : (haltRun s).cause = s.cause := rfl
@[simp] theorem haltRun_fpc (s : State) : (haltRun s).fpc = s.fpc := rfl
@[simp] theorem haltRun_finsn (s : State) : (haltRun s).finsn = s.finsn := rfl
@[simp] theorem haltRun_env (s : State) : (haltRun s).env = s.env := rfl
@[simp] theorem haltRun_replies (s : State) : (haltRun s).replies = s.replies := rfl

@[simp] theorem softReset_params (s : State) : (softReset s).params = s.params := rfl
@[simp] theorem softReset_x (s : State) : (softReset s).x = Vector.replicate 16 0 := rfl
@[simp] theorem softReset_imem (s : State) : (softReset s).imem = s.imem := rfl
@[simp] theorem softReset_pc (s : State) : (softReset s).pc = 0 := rfl
@[simp] theorem softReset_busy (s : State) : (softReset s).busy = false := rfl
@[simp] theorem softReset_done (s : State) : (softReset s).done = false := rfl
@[simp] theorem softReset_fault (s : State) : (softReset s).fault = false := rfl
@[simp] theorem softReset_werr (s : State) : (softReset s).werr = false := rfl
@[simp] theorem softReset_irqEn (s : State) : (softReset s).irqEn = false := rfl
@[simp] theorem softReset_cause (s : State) : (softReset s).cause = 0 := rfl
@[simp] theorem softReset_fpc (s : State) : (softReset s).fpc = 0 := rfl
@[simp] theorem softReset_finsn (s : State) : (softReset s).finsn = 0 := rfl
@[simp] theorem softReset_env (s : State) : (softReset s).env = s.env := rfl
@[simp] theorem softReset_replies (s : State) : (softReset s).replies = s.replies := rfl

@[simp] theorem hardReset_params (s : State) : (hardReset s).params = s.params := rfl
@[simp] theorem hardReset_x (s : State) : (hardReset s).x = Vector.replicate 16 0 := rfl
@[simp] theorem hardReset_imem (s : State) : (hardReset s).imem = [] := rfl
@[simp] theorem hardReset_pc (s : State) : (hardReset s).pc = 0 := rfl
@[simp] theorem hardReset_busy (s : State) : (hardReset s).busy = false := rfl
@[simp] theorem hardReset_done (s : State) : (hardReset s).done = false := rfl
@[simp] theorem hardReset_fault (s : State) : (hardReset s).fault = false := rfl
@[simp] theorem hardReset_werr (s : State) : (hardReset s).werr = false := rfl
@[simp] theorem hardReset_irqEn (s : State) : (hardReset s).irqEn = false := rfl
@[simp] theorem hardReset_cause (s : State) : (hardReset s).cause = 0 := rfl
@[simp] theorem hardReset_fpc (s : State) : (hardReset s).fpc = 0 := rfl
@[simp] theorem hardReset_finsn (s : State) : (hardReset s).finsn = 0 := rfl
@[simp] theorem hardReset_env (s : State) : (hardReset s).env = s.env := rfl
@[simp] theorem hardReset_replies (s : State) : (hardReset s).replies = s.replies := rfl

@[simp] theorem clearStatus_params (v : Word) (s : State) : (clearStatus v s).params = s.params := rfl
@[simp] theorem clearStatus_x (v : Word) (s : State) : (clearStatus v s).x = s.x := rfl
@[simp] theorem clearStatus_imem (v : Word) (s : State) : (clearStatus v s).imem = s.imem := rfl
@[simp] theorem clearStatus_pc (v : Word) (s : State) : (clearStatus v s).pc = s.pc := rfl
@[simp] theorem clearStatus_busy (v : Word) (s : State) : (clearStatus v s).busy = s.busy := rfl
@[simp] theorem clearStatus_done (v : Word) (s : State) : (clearStatus v s).done = (s.done && !v.getLsbD 1) := rfl
@[simp] theorem clearStatus_fault (v : Word) (s : State) : (clearStatus v s).fault = (s.fault && !v.getLsbD 2) := rfl
@[simp] theorem clearStatus_werr (v : Word) (s : State) : (clearStatus v s).werr = (s.werr && !v.getLsbD 3) := rfl
@[simp] theorem clearStatus_irqEn (v : Word) (s : State) : (clearStatus v s).irqEn = s.irqEn := rfl
@[simp] theorem clearStatus_cause (v : Word) (s : State) : (clearStatus v s).cause = s.cause := rfl
@[simp] theorem clearStatus_fpc (v : Word) (s : State) : (clearStatus v s).fpc = s.fpc := rfl
@[simp] theorem clearStatus_finsn (v : Word) (s : State) : (clearStatus v s).finsn = s.finsn := rfl
@[simp] theorem clearStatus_env (v : Word) (s : State) : (clearStatus v s).env = s.env := rfl
@[simp] theorem clearStatus_replies (v : Word) (s : State) : (clearStatus v s).replies = s.replies := rfl

/-! ## Registers through the other updates -/

@[simp] theorem reg_advance (s : State) (r : Reg) : (advance s).reg r = s.reg r := rfl
@[simp] theorem reg_jumpTo (a : BitVec 16) (s : State) (r : Reg) : (jumpTo a s).reg r = s.reg r := rfl
@[simp] theorem reg_takeFault (c : Cause) (w : Word) (s : State) (r : Reg) :
    (takeFault c w s).reg r = s.reg r := rfl
@[simp] theorem reg_haltRun (s : State) (r : Reg) : (haltRun s).reg r = s.reg r := rfl
@[simp] theorem reg_clearStatus (v : Word) (s : State) (r : Reg) :
    (clearStatus v s).reg r = s.reg r := rfl
@[simp] theorem reg_setImemWord (i : Nat) (v : Word) (s : State) (r : Reg) :
    (State.setImemWord i v s).reg r = s.reg r := rfl
@[simp] theorem reg_softReset (s : State) (r : Reg) : (softReset s).reg r = 0 :=
  reg_of_zeroes rfl r
@[simp] theorem reg_hardReset (s : State) (r : Reg) : (hardReset s).reg r = 0 :=
  reg_of_zeroes rfl r
@[simp] theorem reg_resetOf (p : Params) (r : Reg) : (State.resetOf p).reg r = 0 :=
  reg_of_zeroes rfl r

theorem reg_retire (r r' : Reg) (v : Nat) (s : State) :
    (retire r v s).reg r' = if r' = r then v else s.reg r' := reg_setReg r r' v s

@[simp] theorem reg_retire_same (r : Reg) (v : Nat) (s : State) : (retire r v s).reg r = v :=
  reg_setReg_same r v s

/-! ## Reset -/

/-- The memory of the reset state is in canonical form (log 3). -/
theorem reset_imem_wf : State.reset.imem.wf = true := rfl

end Sys2Proof.Machine
end

