-- ==== Sys2Proof/Laws/Exec.lean ====
section
/-! SUPPORT. What an instruction can do, said once: every meaning answers a next state, and that state
is a fault entry, a retirement into the destination, a control transfer or HALT's. -/

namespace Sys2Proof.Machine

/-! ## The shared operations -/

theorem raiseFault_eq (c : Cause) (i : Instr) (s : State) :
    raiseFault c i s = .next (takeFault c (encode i) s) := rfl

theorem retireIfFits_fits {i : Instr} {rd : Reg} {v : Nat} {s : State}
    (h : v < 2 ^ s.params.width) : retireIfFits i rd v s = .next (retire rd v s) := by
  rw [retireIfFits, if_pos ((fits_iff _ _).2 h)]

theorem retireIfFits_overflows {i : Instr} {rd : Reg} {v : Nat} {s : State}
    (h : 2 ^ s.params.width ≤ v) :
    retireIfFits i rd v s = .next (takeFault .overflow (encode i) s) := by
  rw [retireIfFits, if_neg (fun hf => by have := (fits_iff _ _).1 hf; omega), raiseFault_eq]

theorem branchIf_eq (c : Bool) (off : Int) (s : State) :
    branchIf c off s = jumpTo (if c then branchTarget s.pc off else s.pc + 1) s := by
  cases c <;> rfl

/-! ## The effect of an instruction -/

/-- What the next state of an instruction can be. -/
inductive Effect (i : Instr) (s : State) : State → Prop where
  /-- A fault entry, with the instruction's own word recorded (rule R163). -/
  | faults (c : Cause) : Effect i s (takeFault c (encode i) s)
  /-- The destination is written and pc advances (rule R12); the value fits the width in a state
  whose registers and parameters are legal. -/
  | retires (rd : Reg) (v : Nat) (hd : i.dest = some rd)
      (hv : s.params.legal = true → (∀ r, s.reg r < 2 ^ s.params.width) →
        v < 2 ^ s.params.width) : Effect i s (retire rd v s)
  /-- pc is set and nothing else (rule R24). -/
  | transfers (a : BitVec 16) (hd : i.dest = none) : Effect i s (jumpTo a s)
  /-- HALT (rule R158). -/
  | halts (hi : i = .halt) : Effect i s (haltRun s)

theorem retireIfFits_effect {i : Instr} {rd : Reg} (v : Nat) (s : State) (hd : i.dest = some rd) :
    ∃ t, retireIfFits i rd v s = .next t ∧ Effect i s t := by
  rcases Nat.lt_or_ge v (2 ^ s.params.width) with h | h
  · exact ⟨_, retireIfFits_fits h, .retires rd v hd fun _ _ => h⟩
  · exact ⟨_, retireIfFits_overflows h, .faults .overflow⟩

theorem legal_bounds {p : Params} (h : p.legal = true) : 2 ≤ p.nlimbs ∧ p.nlimbs ≤ 256 ∧
    1 ≤ p.imemWords ∧ p.imemWords ≤ 2048 ∧ p.base % 0x8000 = 0 := by
  simpa [Params.legal] using h

theorem pow_width_ge {p : Params} (h : p.legal = true) : 2 ^ 64 ≤ 2 ^ p.width := by
  have := (legal_bounds h).1
  exact Nat.pow_le_pow_right (by omega) (by simp only [Params.width]; omega)

/-- Every instruction answers a next state, and one of these (rules R12, R100, R120). -/
theorem exec_effect (i : Instr) (s : State) : ∃ t, exec i s = .next t ∧ Effect i s t := by
  cases i with
  | nop => exact ⟨_, rfl, .transfers (s.pc + 1) rfl⟩
  | halt => exact ⟨_, rfl, .halts rfl⟩
  | jmp tgt => exact ⟨_, rfl, .transfers _ rfl⟩
  | beq ra rb off => exact ⟨_, rfl, branchIf_eq _ off s ▸ .transfers _ rfl⟩
  | bne ra rb off => exact ⟨_, rfl, branchIf_eq _ off s ▸ .transfers _ rfl⟩
  | bltu ra rb off => exact ⟨_, rfl, branchIf_eq _ off s ▸ .transfers _ rfl⟩
  | bgeu ra rb off => exact ⟨_, rfl, branchIf_eq _ off s ▸ .transfers _ rfl⟩
  | ldi rd imm =>
    refine ⟨_, rfl, .retires rd _ rfl fun hl _ => ?_⟩
    have := pow_width_ge hl
    have := bits16_lt imm
    simp only [immValue]
    omega
  | mov rd ra => exact ⟨_, rfl, .retires rd _ rfl fun _ hr => hr ra⟩
  | sqr rd ra => exact retireIfFits_effect _ s rfl
  | inc rd ra => exact retireIfFits_effect _ s rfl
  | dec rd ra =>
    simp only [exec, execDec]
    split
    · exact ⟨_, rfl, .faults _⟩
    · exact ⟨_, rfl, .retires rd _ rfl fun _ hr => (Nat.sub_le _ _).trans_lt (hr ra)⟩
  | lcm rd ra rb =>
    simp only [exec, execLcm]
    split
    · exact ⟨_, rfl, .faults _⟩
    · exact retireIfFits_effect _ s rfl
  | lfn rd ra rb =>
    simp only [exec, execLfn]
    split
    · exact ⟨_, rfl, .faults _⟩
    · split
      · exact ⟨_, rfl, .faults _⟩
      · exact ⟨_, rfl, .retires rd _ rfl fun _ hr =>
          ((Nat.div_le_self _ _).trans (Nat.sub_le _ _)).trans_lt (hr ra)⟩
  | mul rd ra rb => exact retireIfFits_effect _ s rfl
  | modpow rd ra rb rc =>
    simp only [exec, execModpow]
    split
    · exact ⟨_, rfl, .faults _⟩
    · next h =>
      exact ⟨_, rfl, .retires rd _ rfl fun _ hr => powMod_eq _ _ _ ▸
        (Nat.mod_lt _ (Nat.pos_of_ne_zero h)).trans (hr rc)⟩
  | modinv rd ra rc =>
    simp only [exec, execModinv]
    split
    · exact ⟨_, rfl, .faults _⟩
    · next h =>
      split
      · exact ⟨_, rfl, .faults _⟩
      · exact ⟨_, rfl, .retires rd _ rfl fun _ hr =>
          (modInv_lt _ (Nat.pos_of_ne_zero h)).trans (hr rc)⟩
  | modmul rd ra rb rc =>
    simp only [exec, execModmul]
    split
    · exact ⟨_, rfl, .faults _⟩
    · next h =>
      exact ⟨_, rfl, .retires rd _ rfl fun _ hr =>
        (Nat.mod_lt _ (Nat.pos_of_ne_zero h)).trans (hr rc)⟩
  | montmul rd ra rb rc =>
    simp only [exec, execMontmul]
    split
    · exact ⟨_, rfl, .faults _⟩
    · next h =>
      split
      · exact ⟨_, rfl, .faults _⟩
      · exact ⟨_, rfl, .retires rd _ rfl fun _ hr =>
          (montProduct_lt _ _ _ (Nat.pos_of_ne_zero h)).trans (hr rc)⟩

/-- The inversion form of `exec_effect`. -/
theorem effect_of_exec {i : Instr} {s t : State} (h : exec i s = .next t) : Effect i s t := by
  obtain ⟨t', h', e⟩ := exec_effect i s
  rw [h] at h'
  cases h'
  exact e

/-- No instruction touches IMEM, the parameters, the host's side, WERR or IRQ_EN (rules R25, R36). -/
theorem effect_frame {i : Instr} {s t : State} (h : Effect i s t) :
    t.params = s.params ∧ t.imem = s.imem ∧ t.werr = s.werr ∧ t.irqEn = s.irqEn ∧
      t.env = s.env ∧ t.replies = s.replies := by
  cases h <;> simp

end Sys2Proof.Machine
end

