-- ==== Sys2Proof/Laws/PerInstr.lean ====
section
/-! SUPPORT. The family RowOfEncoding, one lemma for each constructor of Instr: the word of a
well-formed instruction matches a row of the opcode map, and that row builds the instruction. -/

namespace Sys2Proof.Laws.RowOfEncoding

/-- The encoding of a well-formed instruction is found in the opcode map (rules R86, R94). -/
def Statement (i : Instr) : Prop :=
  i.wellFormed = true → ∃ r ∈ opcodeMap, r.matches (encode i) = true ∧ r.build (encode i) = i

theorem reg_eq {w : Word} {lo : Nat} {r : Reg} (h : w.toNat / 2 ^ lo % 16 = r.val) :
    regField w lo = r := Fin.ext ((regField_val w lo).trans h)

theorem nop : Statement .nop := by
  intro _
  have hn : (encode .nop).toNat = 0x04000000 := formatN_toNat (by omega)
  generalize encode .nop = v at hn ⊢
  refine ⟨⟨0xFFFFFFFF, 0x04000000, fun _ => .nop⟩,
    by simp [opcodeMap, controlRows, arithRows, modularRows],
    (Row.matches_iff [(31, 0)] _ (by decide) (by decide) (by decide) v).2 ?_, ?_⟩
  · simp only [List.mem_cons, List.not_mem_nil, or_false, forall_eq, field_eq, hn]
    decide
  · rfl

theorem halt : Statement .halt := by
  intro _
  have hn : (encode .halt).toNat = 0x08000000 := formatN_toNat (by omega)
  generalize encode .halt = v at hn ⊢
  refine ⟨⟨0xFFFFFFFF, 0x08000000, fun _ => .halt⟩,
    by simp [opcodeMap, controlRows, arithRows, modularRows],
    (Row.matches_iff [(31, 0)] _ (by decide) (by decide) (by decide) v).2 ?_, ?_⟩
  · simp only [List.mem_cons, List.not_mem_nil, or_false, forall_eq, field_eq, hn]
    decide
  · rfl

theorem jmp (tgt : Nat) : Statement (.jmp tgt) := by
  intro hw
  have hn := formatJ_toNat (op := 0x3) (by omega) (bits16_lt tgt)
  have ho := bits16_lt tgt
  simp only [Instr.wellFormed, fitsUnsigned16, decide_eq_true_eq] at hw
  change (encode (.jmp tgt)).toNat = _ at hn
  generalize encode (.jmp tgt) = v at hn ⊢
  refine ⟨⟨0xFFFF0000, 0x0C000000, fun w => .jmp (zext16 w)⟩,
    by simp [opcodeMap, controlRows, arithRows, modularRows],
    (Row.matches_iff [(31, 26), (25, 16)] _ (by decide) (by decide) (by decide) v).2 ?_, ?_⟩
  · simp only [List.mem_cons, List.not_mem_nil, or_false, forall_eq_or_imp, forall_eq, field_eq,
      BitVec.ofNat_eq_ofNat, BitVec.toNat_ofNat, hn]
    omega
  · have htgt : zext16 v = tgt := by
      rw [zext16_eq]
      simp only [bits16] at hn ho
      omega
    simp only [htgt]

theorem beq (ra rb : Reg) (off : Int) : Statement (.beq ra rb off) := by
  intro hw
  have hn := formatB_toNat (op := 0x4) (by omega) ra.isLt rb.isLt (offBits_lt off)
  have ho := offBits_lt off
  simp only [Instr.wellFormed, fitsSigned16, decide_eq_true_eq] at hw
  change (encode (.beq ra rb off)).toNat = _ at hn
  generalize encode (.beq ra rb off) = v at hn ⊢
  refine ⟨⟨0xFC030000, 0x10000000, fun w => .beq (regField w 22) (regField w 18) (sext16 w)⟩,
    by simp [opcodeMap, controlRows, arithRows, modularRows],
    (Row.matches_iff [(31, 26), (17, 16)] _ (by decide) (by decide) (by decide) v).2 ?_, ?_⟩
  · simp only [List.mem_cons, List.not_mem_nil, or_false, forall_eq_or_imp, forall_eq, field_eq,
      BitVec.ofNat_eq_ofNat, BitVec.toNat_ofNat, hn]
    omega
  · have hra : regField v 22 = ra := reg_eq (by omega)
    have hrb : regField v 18 = rb := reg_eq (by omega)
    have hoff : sext16 v = off := by
      rw [sext16_eq]
      simp only [offBits] at hn ho
      split <;> omega
    simp only [hra, hrb, hoff]

theorem bne (ra rb : Reg) (off : Int) : Statement (.bne ra rb off) := by
  intro hw
  have hn := formatB_toNat (op := 0x5) (by omega) ra.isLt rb.isLt (offBits_lt off)
  have ho := offBits_lt off
  simp only [Instr.wellFormed, fitsSigned16, decide_eq_true_eq] at hw
  change (encode (.bne ra rb off)).toNat = _ at hn
  generalize encode (.bne ra rb off) = v at hn ⊢
  refine ⟨⟨0xFC030000, 0x14000000, fun w => .bne (regField w 22) (regField w 18) (sext16 w)⟩,
    by simp [opcodeMap, controlRows, arithRows, modularRows],
    (Row.matches_iff [(31, 26), (17, 16)] _ (by decide) (by decide) (by decide) v).2 ?_, ?_⟩
  · simp only [List.mem_cons, List.not_mem_nil, or_false, forall_eq_or_imp, forall_eq, field_eq,
      BitVec.ofNat_eq_ofNat, BitVec.toNat_ofNat, hn]
    omega
  · have hra : regField v 22 = ra := reg_eq (by omega)
    have hrb : regField v 18 = rb := reg_eq (by omega)
    have hoff : sext16 v = off := by
      rw [sext16_eq]
      simp only [offBits] at hn ho
      split <;> omega
    simp only [hra, hrb, hoff]

theorem bltu (ra rb : Reg) (off : Int) : Statement (.bltu ra rb off) := by
  intro hw
  have hn := formatB_toNat (op := 0x6) (by omega) ra.isLt rb.isLt (offBits_lt off)
  have ho := offBits_lt off
  simp only [Instr.wellFormed, fitsSigned16, decide_eq_true_eq] at hw
  change (encode (.bltu ra rb off)).toNat = _ at hn
  generalize encode (.bltu ra rb off) = v at hn ⊢
  refine ⟨⟨0xFC030000, 0x18000000, fun w => .bltu (regField w 22) (regField w 18) (sext16 w)⟩,
    by simp [opcodeMap, controlRows, arithRows, modularRows],
    (Row.matches_iff [(31, 26), (17, 16)] _ (by decide) (by decide) (by decide) v).2 ?_, ?_⟩
  · simp only [List.mem_cons, List.not_mem_nil, or_false, forall_eq_or_imp, forall_eq, field_eq,
      BitVec.ofNat_eq_ofNat, BitVec.toNat_ofNat, hn]
    omega
  · have hra : regField v 22 = ra := reg_eq (by omega)
    have hrb : regField v 18 = rb := reg_eq (by omega)
    have hoff : sext16 v = off := by
      rw [sext16_eq]
      simp only [offBits] at hn ho
      split <;> omega
    simp only [hra, hrb, hoff]

theorem bgeu (ra rb : Reg) (off : Int) : Statement (.bgeu ra rb off) := by
  intro hw
  have hn := formatB_toNat (op := 0x7) (by omega) ra.isLt rb.isLt (offBits_lt off)
  have ho := offBits_lt off
  simp only [Instr.wellFormed, fitsSigned16, decide_eq_true_eq] at hw
  change (encode (.bgeu ra rb off)).toNat = _ at hn
  generalize encode (.bgeu ra rb off) = v at hn ⊢
  refine ⟨⟨0xFC030000, 0x1C000000, fun w => .bgeu (regField w 22) (regField w 18) (sext16 w)⟩,
    by simp [opcodeMap, controlRows, arithRows, modularRows],
    (Row.matches_iff [(31, 26), (17, 16)] _ (by decide) (by decide) (by decide) v).2 ?_, ?_⟩
  · simp only [List.mem_cons, List.not_mem_nil, or_false, forall_eq_or_imp, forall_eq, field_eq,
      BitVec.ofNat_eq_ofNat, BitVec.toNat_ofNat, hn]
    omega
  · have hra : regField v 22 = ra := reg_eq (by omega)
    have hrb : regField v 18 = rb := reg_eq (by omega)
    have hoff : sext16 v = off := by
      rw [sext16_eq]
      simp only [offBits] at hn ho
      split <;> omega
    simp only [hra, hrb, hoff]

theorem ldi (rd : Reg) (imm : Nat) : Statement (.ldi rd imm) := by
  intro hw
  have hn := formatI_toNat (op := 0x8) (by omega) rd.isLt (bits16_lt imm)
  have ho := bits16_lt imm
  simp only [Instr.wellFormed, fitsUnsigned16, decide_eq_true_eq] at hw
  change (encode (.ldi rd imm)).toNat = _ at hn
  generalize encode (.ldi rd imm) = v at hn ⊢
  refine ⟨⟨0xFC3F0000, 0x20000000, fun w => .ldi (regField w 22) (zext16 w)⟩,
    by simp [opcodeMap, controlRows, arithRows, modularRows],
    (Row.matches_iff [(31, 26), (21, 16)] _ (by decide) (by decide) (by decide) v).2 ?_, ?_⟩
  · simp only [List.mem_cons, List.not_mem_nil, or_false, forall_eq_or_imp, forall_eq, field_eq,
      BitVec.ofNat_eq_ofNat, BitVec.toNat_ofNat, hn]
    omega
  · have hrd : regField v 22 = rd := reg_eq (by omega)
    have himm : zext16 v = imm := by
      rw [zext16_eq]
      simp only [bits16] at hn ho
      omega
    simp only [hrd, himm]

theorem mov (rd ra : Reg) : Statement (.mov rd ra) := by
  intro _
  have hn := formatR_toNat (op := 0x9) (rb := 0) (rc := 0) (by omega) rd.isLt ra.isLt (by omega)
    (by omega)
  change (encode (.mov rd ra)).toNat = _ at hn
  generalize encode (.mov rd ra) = v at hn ⊢
  refine ⟨⟨0xFC03FFFF, 0x24000000, fun w => .mov (regField w 22) (regField w 18)⟩,
    by simp [opcodeMap, controlRows, arithRows, modularRows],
    (Row.matches_iff [(31, 26), (17, 0)] _ (by decide) (by decide) (by decide) v).2 ?_, ?_⟩
  · simp only [List.mem_cons, List.not_mem_nil, or_false, forall_eq_or_imp, forall_eq, field_eq,
      BitVec.ofNat_eq_ofNat, BitVec.toNat_ofNat, hn]
    omega
  · have hrd : regField v 22 = rd := reg_eq (by omega)
    have hra : regField v 18 = ra := reg_eq (by omega)
    simp only [hrd, hra]

theorem sqr (rd ra : Reg) : Statement (.sqr rd ra) := by
  intro _
  have hn := formatR_toNat (op := 0x10) (rb := 0) (rc := 0) (by omega) rd.isLt ra.isLt (by omega)
    (by omega)
  change (encode (.sqr rd ra)).toNat = _ at hn
  generalize encode (.sqr rd ra) = v at hn ⊢
  refine ⟨⟨0xFC03FFFF, 0x40000000, fun w => .sqr (regField w 22) (regField w 18)⟩,
    by simp [opcodeMap, controlRows, arithRows, modularRows],
    (Row.matches_iff [(31, 26), (17, 0)] _ (by decide) (by decide) (by decide) v).2 ?_, ?_⟩
  · simp only [List.mem_cons, List.not_mem_nil, or_false, forall_eq_or_imp, forall_eq, field_eq,
      BitVec.ofNat_eq_ofNat, BitVec.toNat_ofNat, hn]
    omega
  · have hrd : regField v 22 = rd := reg_eq (by omega)
    have hra : regField v 18 = ra := reg_eq (by omega)
    simp only [hrd, hra]

theorem inc (rd ra : Reg) : Statement (.inc rd ra) := by
  intro _
  have hn := formatR_toNat (op := 0x11) (rb := 0) (rc := 0) (by omega) rd.isLt ra.isLt (by omega)
    (by omega)
  change (encode (.inc rd ra)).toNat = _ at hn
  generalize encode (.inc rd ra) = v at hn ⊢
  refine ⟨⟨0xFC03FFFF, 0x44000000, fun w => .inc (regField w 22) (regField w 18)⟩,
    by simp [opcodeMap, controlRows, arithRows, modularRows],
    (Row.matches_iff [(31, 26), (17, 0)] _ (by decide) (by decide) (by decide) v).2 ?_, ?_⟩
  · simp only [List.mem_cons, List.not_mem_nil, or_false, forall_eq_or_imp, forall_eq, field_eq,
      BitVec.ofNat_eq_ofNat, BitVec.toNat_ofNat, hn]
    omega
  · have hrd : regField v 22 = rd := reg_eq (by omega)
    have hra : regField v 18 = ra := reg_eq (by omega)
    simp only [hrd, hra]

theorem dec (rd ra : Reg) : Statement (.dec rd ra) := by
  intro _
  have hn := formatR_toNat (op := 0x12) (rb := 0) (rc := 0) (by omega) rd.isLt ra.isLt (by omega)
    (by omega)
  change (encode (.dec rd ra)).toNat = _ at hn
  generalize encode (.dec rd ra) = v at hn ⊢
  refine ⟨⟨0xFC03FFFF, 0x48000000, fun w => .dec (regField w 22) (regField w 18)⟩,
    by simp [opcodeMap, controlRows, arithRows, modularRows],
    (Row.matches_iff [(31, 26), (17, 0)] _ (by decide) (by decide) (by decide) v).2 ?_, ?_⟩
  · simp only [List.mem_cons, List.not_mem_nil, or_false, forall_eq_or_imp, forall_eq, field_eq,
      BitVec.ofNat_eq_ofNat, BitVec.toNat_ofNat, hn]
    omega
  · have hrd : regField v 22 = rd := reg_eq (by omega)
    have hra : regField v 18 = ra := reg_eq (by omega)
    simp only [hrd, hra]

theorem lcm (rd ra rb : Reg) : Statement (.lcm rd ra rb) := by
  intro _
  have hn := formatR_toNat (op := 0x13) (rc := 0) (by omega) rd.isLt ra.isLt rb.isLt
    (by omega)
  change (encode (.lcm rd ra rb)).toNat = _ at hn
  generalize encode (.lcm rd ra rb) = v at hn ⊢
  refine ⟨⟨0xFC003FFF, 0x4C000000, fun w => .lcm (regField w 22) (regField w 18) (regField w 14)⟩,
    by simp [opcodeMap, controlRows, arithRows, modularRows],
    (Row.matches_iff [(31, 26), (13, 0)] _ (by decide) (by decide) (by decide) v).2 ?_, ?_⟩
  · simp only [List.mem_cons, List.not_mem_nil, or_false, forall_eq_or_imp, forall_eq, field_eq,
      BitVec.ofNat_eq_ofNat, BitVec.toNat_ofNat, hn]
    omega
  · have hrd : regField v 22 = rd := reg_eq (by omega)
    have hra : regField v 18 = ra := reg_eq (by omega)
    have hrb : regField v 14 = rb := reg_eq (by omega)
    simp only [hrd, hra, hrb]

theorem lfn (rd ra rb : Reg) : Statement (.lfn rd ra rb) := by
  intro _
  have hn := formatR_toNat (op := 0x14) (rc := 0) (by omega) rd.isLt ra.isLt rb.isLt
    (by omega)
  change (encode (.lfn rd ra rb)).toNat = _ at hn
  generalize encode (.lfn rd ra rb) = v at hn ⊢
  refine ⟨⟨0xFC003FFF, 0x50000000, fun w => .lfn (regField w 22) (regField w 18) (regField w 14)⟩,
    by simp [opcodeMap, controlRows, arithRows, modularRows],
    (Row.matches_iff [(31, 26), (13, 0)] _ (by decide) (by decide) (by decide) v).2 ?_, ?_⟩
  · simp only [List.mem_cons, List.not_mem_nil, or_false, forall_eq_or_imp, forall_eq, field_eq,
      BitVec.ofNat_eq_ofNat, BitVec.toNat_ofNat, hn]
    omega
  · have hrd : regField v 22 = rd := reg_eq (by omega)
    have hra : regField v 18 = ra := reg_eq (by omega)
    have hrb : regField v 14 = rb := reg_eq (by omega)
    simp only [hrd, hra, hrb]

theorem mul (rd ra rb : Reg) : Statement (.mul rd ra rb) := by
  intro _
  have hn := formatR_toNat (op := 0x15) (rc := 0) (by omega) rd.isLt ra.isLt rb.isLt
    (by omega)
  change (encode (.mul rd ra rb)).toNat = _ at hn
  generalize encode (.mul rd ra rb) = v at hn ⊢
  refine ⟨⟨0xFC003FFF, 0x54000000, fun w => .mul (regField w 22) (regField w 18) (regField w 14)⟩,
    by simp [opcodeMap, controlRows, arithRows, modularRows],
    (Row.matches_iff [(31, 26), (13, 0)] _ (by decide) (by decide) (by decide) v).2 ?_, ?_⟩
  · simp only [List.mem_cons, List.not_mem_nil, or_false, forall_eq_or_imp, forall_eq, field_eq,
      BitVec.ofNat_eq_ofNat, BitVec.toNat_ofNat, hn]
    omega
  · have hrd : regField v 22 = rd := reg_eq (by omega)
    have hra : regField v 18 = ra := reg_eq (by omega)
    have hrb : regField v 14 = rb := reg_eq (by omega)
    simp only [hrd, hra, hrb]

theorem modpow (rd ra rb rc : Reg) : Statement (.modpow rd ra rb rc) := by
  intro _
  have hn := formatR_toNat (op := 0x18) (by omega) rd.isLt ra.isLt rb.isLt rc.isLt
  change (encode (.modpow rd ra rb rc)).toNat = _ at hn
  generalize encode (.modpow rd ra rb rc) = v at hn ⊢
  refine ⟨⟨0xFC0003FF, 0x60000000, fun w => .modpow (regField w 22) (regField w 18) (regField w 14) (regField w 10)⟩,
    by simp [opcodeMap, controlRows, arithRows, modularRows],
    (Row.matches_iff [(31, 26), (9, 0)] _ (by decide) (by decide) (by decide) v).2 ?_, ?_⟩
  · simp only [List.mem_cons, List.not_mem_nil, or_false, forall_eq_or_imp, forall_eq, field_eq,
      BitVec.ofNat_eq_ofNat, BitVec.toNat_ofNat, hn]
    omega
  · have hrd : regField v 22 = rd := reg_eq (by omega)
    have hra : regField v 18 = ra := reg_eq (by omega)
    have hrb : regField v 14 = rb := reg_eq (by omega)
    have hrc : regField v 10 = rc := reg_eq (by omega)
    simp only [hrd, hra, hrb, hrc]

theorem modinv (rd ra rc : Reg) : Statement (.modinv rd ra rc) := by
  intro _
  have hn := formatR_toNat (op := 0x19) (rb := 0) (by omega) rd.isLt ra.isLt (by omega)
    rc.isLt
  change (encode (.modinv rd ra rc)).toNat = _ at hn
  generalize encode (.modinv rd ra rc) = v at hn ⊢
  refine ⟨⟨0xFC03C3FF, 0x64000000, fun w => .modinv (regField w 22) (regField w 18) (regField w 10)⟩,
    by simp [opcodeMap, controlRows, arithRows, modularRows],
    (Row.matches_iff [(31, 26), (17, 14), (9, 0)] _ (by decide) (by decide) (by decide) v).2 ?_, ?_⟩
  · simp only [List.mem_cons, List.not_mem_nil, or_false, forall_eq_or_imp, forall_eq, field_eq,
      BitVec.ofNat_eq_ofNat, BitVec.toNat_ofNat, hn]
    omega
  · have hrd : regField v 22 = rd := reg_eq (by omega)
    have hra : regField v 18 = ra := reg_eq (by omega)
    have hrc : regField v 10 = rc := reg_eq (by omega)
    simp only [hrd, hra, hrc]

theorem modmul (rd ra rb rc : Reg) : Statement (.modmul rd ra rb rc) := by
  intro _
  have hn := formatR_toNat (op := 0x1a) (by omega) rd.isLt ra.isLt rb.isLt rc.isLt
  change (encode (.modmul rd ra rb rc)).toNat = _ at hn
  generalize encode (.modmul rd ra rb rc) = v at hn ⊢
  refine ⟨⟨0xFC0003FF, 0x68000000, fun w => .modmul (regField w 22) (regField w 18) (regField w 14) (regField w 10)⟩,
    by simp [opcodeMap, controlRows, arithRows, modularRows],
    (Row.matches_iff [(31, 26), (9, 0)] _ (by decide) (by decide) (by decide) v).2 ?_, ?_⟩
  · simp only [List.mem_cons, List.not_mem_nil, or_false, forall_eq_or_imp, forall_eq, field_eq,
      BitVec.ofNat_eq_ofNat, BitVec.toNat_ofNat, hn]
    omega
  · have hrd : regField v 22 = rd := reg_eq (by omega)
    have hra : regField v 18 = ra := reg_eq (by omega)
    have hrb : regField v 14 = rb := reg_eq (by omega)
    have hrc : regField v 10 = rc := reg_eq (by omega)
    simp only [hrd, hra, hrb, hrc]

theorem montmul (rd ra rb rc : Reg) : Statement (.montmul rd ra rb rc) := by
  intro _
  have hn := formatR_toNat (op := 0x1b) (by omega) rd.isLt ra.isLt rb.isLt rc.isLt
  change (encode (.montmul rd ra rb rc)).toNat = _ at hn
  generalize encode (.montmul rd ra rb rc) = v at hn ⊢
  refine ⟨⟨0xFC0003FF, 0x6C000000, fun w => .montmul (regField w 22) (regField w 18) (regField w 14) (regField w 10)⟩,
    by simp [opcodeMap, controlRows, arithRows, modularRows],
    (Row.matches_iff [(31, 26), (9, 0)] _ (by decide) (by decide) (by decide) v).2 ?_, ?_⟩
  · simp only [List.mem_cons, List.not_mem_nil, or_false, forall_eq_or_imp, forall_eq, field_eq,
      BitVec.ofNat_eq_ofNat, BitVec.toNat_ofNat, hn]
    omega
  · have hrd : regField v 22 = rd := reg_eq (by omega)
    have hra : regField v 18 = ra := reg_eq (by omega)
    have hrb : regField v 14 = rb := reg_eq (by omega)
    have hrc : regField v 10 = rc := reg_eq (by omega)
    simp only [hrd, hra, hrb, hrc]

/-- The whole family: every well-formed instruction's word is found in the opcode map. -/
theorem all (i : Instr) : Statement i := by
  cases i with
  | nop => exact nop
  | halt => exact halt
  | jmp tgt => exact jmp tgt
  | beq ra rb off => exact beq ra rb off
  | bne ra rb off => exact bne ra rb off
  | bltu ra rb off => exact bltu ra rb off
  | bgeu ra rb off => exact bgeu ra rb off
  | ldi rd imm => exact ldi rd imm
  | mov rd ra => exact mov rd ra
  | sqr rd ra => exact sqr rd ra
  | inc rd ra => exact inc rd ra
  | dec rd ra => exact dec rd ra
  | lcm rd ra rb => exact lcm rd ra rb
  | lfn rd ra rb => exact lfn rd ra rb
  | mul rd ra rb => exact mul rd ra rb
  | modpow rd ra rb rc => exact modpow rd ra rb rc
  | modinv rd ra rc => exact modinv rd ra rc
  | modmul rd ra rb rc => exact modmul rd ra rb rc
  | montmul rd ra rb rc => exact montmul rd ra rb rc

end Sys2Proof.Laws.RowOfEncoding
end

