-- ==== Sys2Proof/Laws/Window.lean ====
section
/-! SUPPORT. What a host access can do, said once: which item an offset names, what a read returns and
what a write leaves alone. -/

namespace Sys2Proof.Machine

/-! ## The window map -/

/-- The bus address of a window offset is that offset (rules R50, R69). -/
theorem windowOffset_base {p : Params} {a : Nat} (h : a < Config.windowSize) :
    windowOffset p (p.base + a) = some a := by
  simp [windowOffset, h]

theorem windowOffset_some {p : Params} {addr a : Nat} (h : windowOffset p addr = some a) :
    addr = p.base + a ∧ a < Config.windowSize := by
  unfold windowOffset at h
  split at h
  · next hc =>
    cases h
    omega
  · cases h

/-- Above the control and status registers only IMEM and the register window are mapped (rule R51). -/
theorem windowItem_high {p : Params} {a : Nat} (h : 0x20 ≤ a) : windowItem p a =
    if Config.imemOffset ≤ a ∧ a < Config.imemOffset + 4 * p.imemWords then
      .imemWord ((a - Config.imemOffset) / 4)
    else if Config.regOffset ≤ a ∧ a < Config.regOffset + 64 * p.nlimbs then
      .regLimb (Fin.ofNat 16 ((a - Config.regOffset) / 4 / p.nlimbs))
        ((a - Config.regOffset) / 4 % p.nlimbs)
    else .unmapped := by
  unfold windowItem
  repeat rw [if_neg (by omega)]

/-- IMEM[i] is at 0x2000 + 4 * i (rule R54). -/
theorem windowItem_imem {p : Params} {i : Nat} (h : i < p.imemWords) :
    windowItem p (0x2000 + 4 * i) = .imemWord i := by
  have h1 : Config.imemOffset ≤ 0x2000 + 4 * i ∧
      0x2000 + 4 * i < Config.imemOffset + 4 * p.imemWords := by
    simp only [Config.imemOffset]; omega
  have h2 : (0x2000 + 4 * i - Config.imemOffset) / 4 = i := by
    simp only [Config.imemOffset]; omega
  rw [windowItem_high (by omega), if_pos h1, h2]

theorem div_limbs {r n k : Nat} (hk : k < n) : (r * n + k) / n = r ∧ (r * n + k) % n = k := by
  constructor
  · rw [Nat.mul_comm, Nat.mul_add_div (by omega), Nat.div_eq_of_lt hk, Nat.add_zero]
  · rw [Nat.mul_comm, Nat.mul_add_mod, Nat.mod_eq_of_lt hk]

theorem limb_index_lt {n k : Nat} (r : Reg) (hk : k < n) : r.val * n + k < 16 * n := by
  calc r.val * n + k < r.val * n + n := by omega
    _ = (r.val + 1) * n := by ring
    _ ≤ 16 * n := Nat.mul_le_mul_right n r.isLt

/-- Limb k of register r is at 0x4000 + 4 * (r * NLIMBS + k) (rule R52). -/
theorem windowItem_reg {p : Params} (hp : p.legal = true) (r : Reg) {k : Nat} (hk : k < p.nlimbs) :
    windowItem p (0x4000 + 4 * (r.val * p.nlimbs + k)) = .regLimb r k := by
  have hb := legal_bounds hp
  have hlt := limb_index_lt r hk
  obtain ⟨hd, hm⟩ := div_limbs (r := r.val) hk
  generalize hj : r.val * p.nlimbs + k = j at *
  have h1 : ¬ (Config.imemOffset ≤ 0x4000 + 4 * j ∧
      0x4000 + 4 * j < Config.imemOffset + 4 * p.imemWords) := by
    simp only [Config.imemOffset]; omega
  have h2 : Config.regOffset ≤ 0x4000 + 4 * j ∧ 0x4000 + 4 * j < Config.regOffset + 64 * p.nlimbs := by
    simp only [Config.regOffset]; omega
  have h3 : (0x4000 + 4 * j - Config.regOffset) / 4 = j := by
    simp only [Config.regOffset]; omega
  rw [windowItem_high (by omega), if_neg h1, if_pos h2, h3, hd, hm]
  simp

/-- An offset in the IMEM window names its word (rules R51, R54). -/
theorem windowItem_in_imem {p : Params} {a : Nat} (h : 0x2000 ≤ a ∧ a < 0x2000 + 4 * p.imemWords) :
    windowItem p a = .imemWord ((a - 0x2000) / 4) := by
  rw [windowItem_high (by omega)]
  exact if_pos h

/-- An offset in the register window names its limb (rules R51, R52). -/
theorem windowItem_in_regs {p : Params} (hp : p.legal = true) {a : Nat}
    (h : 0x4000 ≤ a ∧ a < 0x4000 + 64 * p.nlimbs) :
    windowItem p a = .regLimb (Fin.ofNat 16 ((a - 0x4000) / 4 / p.nlimbs))
      ((a - 0x4000) / 4 % p.nlimbs) := by
  have hb := legal_bounds hp
  have hn : ¬ (Config.imemOffset ≤ a ∧ a < Config.imemOffset + 4 * p.imemWords) := by
    simp only [Config.imemOffset]; omega
  rw [windowItem_high (by omega), if_neg hn]
  exact if_pos h

/-- Offset 0x008 and no other is CTRL (rule R51). -/
theorem windowItem_eq_ctrl {p : Params} {a : Nat} : windowItem p a = .ctrl ↔ a = 0x008 := by
  constructor
  · unfold windowItem
    repeat' split
    all_goals simp_all
  · rintro rfl
    rfl

theorem windowItem_imem_range {p : Params} {a i : Nat} (h : windowItem p a = .imemWord i) :
    i < p.imemWords ∧ Config.imemOffset ≤ a ∧ i = (a - Config.imemOffset) / 4 := by
  unfold windowItem at h
  repeat' split at h
  all_goals first
    | (cases h; done)
    | skip
  next hr =>
    cases h
    refine ⟨?_, hr.1, rfl⟩
    omega

theorem windowItem_reg_range {p : Params} {a k : Nat} {r : Reg} (hp : 0 < p.nlimbs)
    (h : windowItem p a = .regLimb r k) : k < p.nlimbs := by
  unfold windowItem at h
  repeat' split at h
  all_goals first
    | (cases h; done)
    | skip
  cases h
  exact Nat.mod_lt _ hp

/-! ## What an access does to the rest of the state -/

/-- A read leaves the state alone, or sets WERR when it is rejected (rules R55, R57). -/
theorem memRead_state (a n : Nat) (s : State) :
    (memRead a n s).2 = s ∨ (memRead a n s).2 = { s with werr := true } := by
  unfold memRead
  split <;> simp

/-- A read leaves everything but WERR and the replies alone. -/
theorem answerRead_frame (a n : Nat) (s : State) :
    answerRead (memRead a n s) =
      { s with werr := (answerRead (memRead a n s)).werr,
               replies := s.replies ++ [(memRead a n s).1] } := by
  unfold answerRead memRead
  split <;> rfl

theorem memRead_supported {a : Nat} (h : a % 4 = 0) (s : State) :
    memRead a 4 s = (readItem s (windowItem s.params a), s) := by
  simp [memRead, supported, h]

theorem memWrite_supported {a : Nat} (h : a % 4 = 0) (v : Word) (s : State) :
    memWrite a 4 v s = writeItem v s (windowItem s.params a) := by
  simp [memWrite, supported, h]

theorem writeItem_frame (v : Word) (s : State) (w : WindowItem) :
    (writeItem v s w).params = s.params ∧ (writeItem v s w).env = s.env ∧
      (writeItem v s w).replies = s.replies := by
  cases w <;> simp only [writeItem, writeCtrl, whileIdle, start] <;> (repeat' split) <;> simp

/-- No write touches the parameters or the model's own fields. -/
theorem memWrite_frame (a n : Nat) (v : Word) (s : State) :
    (memWrite a n v s).params = s.params ∧ (memWrite a n v s).env = s.env ∧
      (memWrite a n v s).replies = s.replies := by
  unfold memWrite
  split
  · exact writeItem_frame v s _
  · simp

theorem whileIdle_busy {s : State} (h : s.busy = true) (f : State → State) :
    whileIdle f s = { s with werr := true } := if_pos h

theorem whileIdle_idle {s : State} (h : s.busy = false) (f : State → State) :
    whileIdle f s = f s := by
  unfold whileIdle
  rw [if_neg (by rw [h]; decide)]

/-! ## Writing CTRL -/

theorem memWrite_ctrl (v : Word) (s : State) : memWrite 0x008 4 v s = writeCtrl v s := rfl

/-- SRST takes precedence (rule R30). -/
theorem writeCtrl_srst {v : Word} (h : v.getLsbD 1 = true) (s : State) :
    writeCtrl v s = softReset s := if_pos h

theorem writeCtrl_start {v : Word} (h1 : v.getLsbD 1 = false) (h0 : v.getLsbD 0 = true)
    (s : State) : writeCtrl v s = start { s with irqEn := v.getLsbD 2 } := by
  unfold writeCtrl
  rw [if_neg (by rw [h1]; decide), if_pos h0]

theorem writeCtrl_neither {v : Word} (h1 : v.getLsbD 1 = false) (h0 : v.getLsbD 0 = false)
    (s : State) : writeCtrl v s = { s with irqEn := v.getLsbD 2 } := by
  unfold writeCtrl
  rw [if_neg (by rw [h1]; decide), if_neg (by rw [h0]; decide)]

/-- A START while BUSY or FAULT only sets WERR (rule R177). -/
theorem start_refused {s : State} (h : s.busy = true ∨ s.fault = true) :
    start s = { s with werr := true } := by
  rcases h with h | h <;> simp [start, h]

theorem start_accepted {s : State} (hb : s.busy = false) (hf : s.fault = false) :
    start s = { s with done := false, busy := true } := by
  simp [start, hb, hf]

/-- What a host access that is in the window answers (rule R69). -/
theorem hostAccess_next {h : HostAccess} {s t : State} (e : hostAccess h s = .next t) :
    (∃ a n, h = .read (s.params.base + a) n ∧ a < 0x8000 ∧ t = answerRead (memRead a n s)) ∨
      ∃ a n v, h = .write (s.params.base + a) n v ∧ a < 0x8000 ∧ t = memWrite a n v s := by
  cases h with
  | read addr n =>
    simp only [hostAccess] at e
    split at e
    · next a ha =>
      obtain ⟨h1, h2⟩ := windowOffset_some ha
      cases e
      exact .inl ⟨a, n, by rw [h1], h2, rfl⟩
    · cases e
  | write addr n v =>
    simp only [hostAccess] at e
    split at e
    · next a ha =>
      obtain ⟨h1, h2⟩ := windowOffset_some ha
      cases e
      exact .inr ⟨a, n, v, by rw [h1], h2, rfl⟩
    · cases e

end Sys2Proof.Machine
end

