-- ==== Sys2Proof/Laws/Step.lean ====
section
/-! SUPPORT. What one event can do, said once: the sequencer's step, a host access, and the whole
step. -/

namespace Sys2Proof.Machine

/-! ## The sequencer -/

/-- What the sequencer's step can do (rules R140, R165). -/
inductive SeqEffect (s : State) : State → Prop where
  /-- pc is past IMEM: FETCH_RANGE with no word. -/
  | fetchRange (h : s.params.imemWords ≤ s.pc.toNat) : SeqEffect s (takeFault .fetchRange 0 s)
  /-- The word at pc is no instruction. -/
  | illegal (e : Illegal) (h : s.pc.toNat < s.params.imemWords)
      (hd : decodeWord (s.imemWord s.pc.toNat) = .error e) :
      SeqEffect s (takeFault .illegalInstruction (s.imemWord s.pc.toNat) s)
  /-- The word at pc is an instruction and has its effect. -/
  | runs (i : Instr) (t : State) (h : s.pc.toNat < s.params.imemWords)
      (hd : decodeWord (s.imemWord s.pc.toNat) = .ok i) (hx : exec i s = .next t)
      (he : Effect i s t) : SeqEffect s t

theorem seqStep_effect (s : State) : ∃ t, seqStep s = .next t ∧ SeqEffect s t := by
  by_cases h : s.pc.toNat < s.params.imemWords
  · have hf : s.fetch = some (s.imemWord s.pc.toNat) := if_pos h
    cases hd : decodeWord (s.imemWord s.pc.toNat) with
    | error e =>
      refine ⟨_, ?_, .illegal e h hd⟩
      simp [seqStep, hf, hd]
    | ok i =>
      obtain ⟨t, hx, he⟩ := exec_effect i s
      refine ⟨t, ?_, .runs i t h hd hx he⟩
      simp [seqStep, hf, hd, hx]
  · have hf : s.fetch = none := if_neg h
    refine ⟨_, ?_, .fetchRange (by omega)⟩
    simp [seqStep, hf]

/-- A running sequencer's step leaves IMEM, the parameters and the host's side alone. -/
theorem seqEffect_frame {s t : State} (h : SeqEffect s t) :
    t.params = s.params ∧ t.imem = s.imem ∧ t.werr = s.werr ∧ t.irqEn = s.irqEn ∧
      t.env = s.env ∧ t.replies = s.replies := by
  cases h with
  | fetchRange => simp
  | illegal => simp
  | runs i t h hd hx he => exact effect_frame he

theorem seqTurn_busy {s : State} (h : s.busy = true) : seqTurn s = seqStep s := by
  rw [seqTurn, if_pos h]

theorem seqTurn_idle {s : State} (h : s.busy = false) : seqTurn s = .next s := by
  simp [seqTurn, h]

/-! ## One step -/

theorem step_nil {s : State} (h : s.env = []) : step s = seqTurn s := by
  simp [step, nextEvent, h]

theorem step_cons {s : State} {e : Event} {rest : List Event} (h : s.env = e :: rest) :
    step s = takeEvent e { s with env := rest } := by
  simp [step, nextEvent, h]

/-- A host write in the window is MemWrite (rules R61, R69). -/
theorem step_hostWrite {s : State} {a n : Nat} {v : Word} {rest : List Event}
    (he : s.env = .access (.write (s.params.base + a) n v) :: rest) (ha : a < 0x8000) :
    step s = .next (memWrite a n v { s with env := rest }) := by
  rw [step_cons he]
  simp only [takeEvent, hostAccess]
  rw [windowOffset_base (p := s.params) ha]

/-- A host read in the window is MemRead, its word kept for the host (rules R61, R69; log 4). -/
theorem step_hostRead {s : State} {a n : Nat} {rest : List Event}
    (he : s.env = .access (.read (s.params.base + a) n) :: rest) (ha : a < 0x8000) :
    step s = .next (answerRead (memRead a n { s with env := rest })) := by
  rw [step_cons he]
  simp only [takeEvent, hostAccess]
  rw [windowOffset_base (p := s.params) ha]

theorem SequencerNext.tail {s : State} {rest : List Event} (h : SequencerNext s rest) :
    rest = s.env.tail := by
  rcases h with ⟨h, rfl⟩ | h <;> simp [h]

/-- What one step can do (rules R61, R69, R140, R190). -/
inductive StepEffect (s : State) : State → Prop where
  /-- The sequencer's turn on an idle block. -/
  | idle (rest : List Event) (he : SequencerNext s rest) (hb : s.busy = false) :
      StepEffect s { s with env := rest }
  /-- The sequencer's turn on a running block. -/
  | runs (rest : List Event) (t : State) (he : SequencerNext s rest) (hb : s.busy = true)
      (h : SeqEffect { s with env := rest } t) : StepEffect s t
  /-- A host read in the window. -/
  | read (a n : Nat) (rest : List Event)
      (he : s.env = .access (.read (s.params.base + a) n) :: rest) (ha : a < 0x8000) :
      StepEffect s (answerRead (memRead a n { s with env := rest }))
  /-- A host write in the window. -/
  | write (a n : Nat) (v : Word) (rest : List Event)
      (he : s.env = .access (.write (s.params.base + a) n v) :: rest) (ha : a < 0x8000) :
      StepEffect s (memWrite a n v { s with env := rest })
  /-- A hardware reset. -/
  | reset (rest : List Event) (he : s.env = .hardwareReset :: rest) :
      StepEffect s (hardReset { s with env := rest })

/-- A step that is the sequencer's turn (rules R61, R140). -/
theorem step_of_sequencerNext {s : State} {rest : List Event} (h : SequencerNext s rest) :
    step s = seqTurn { s with env := rest } := by
  rcases h with ⟨h, rfl⟩ | h
  · rw [step_nil h, ← h]
  · rw [step_cons h]
    rfl

/-- On a running block it is the sequencer's step (rule R140). -/
theorem step_of_sequencerNext_busy {s : State} {rest : List Event} (h : SequencerNext s rest)
    (hb : s.busy = true) : step s = seqStep { s with env := rest } :=
  (step_of_sequencerNext h).trans (seqTurn_busy hb)

theorem seqTurn_next (s : State) : ∃ t, seqTurn s = .next t ∧
    ((s.busy = false ∧ t = s) ∨ (s.busy = true ∧ SeqEffect s t)) := by
  cases hb : s.busy with
  | false => exact ⟨s, seqTurn_idle hb, .inl ⟨rfl, rfl⟩⟩
  | true =>
    obtain ⟨t, h1, h2⟩ := seqStep_effect s
    exact ⟨t, (seqTurn_busy hb).trans h1, .inr ⟨rfl, h2⟩⟩

theorem stepEffect_of_seqTurn {s t : State} {rest : List Event} (he : SequencerNext s rest)
    (h : seqTurn { s with env := rest } = .next t) : StepEffect s t := by
  obtain ⟨t', h1, h2⟩ := seqTurn_next { s with env := rest }
  rw [h1] at h
  cases h
  rcases h2 with ⟨hb, rfl⟩ | ⟨hb, h2⟩
  · exact .idle rest he hb
  · exact .runs rest _ he hb h2

/-- Every next state of a step is one of these. -/
theorem step_effect {s t : State} (h : step s = .next t) : StepEffect s t := by
  cases he : s.env with
  | nil =>
    have hs : s = { s with env := [] } := by rw [← he]
    rw [step_nil he, hs] at h
    exact stepEffect_of_seqTurn (.inl ⟨he, rfl⟩) h
  | cons e rest =>
    rw [step_cons he] at h
    cases e with
    | sequencer => exact stepEffect_of_seqTurn (.inr he) h
    | access a =>
      rcases hostAccess_next h with ⟨a, n, rfl, ha, rfl⟩ | ⟨a, n, v, rfl, ha, rfl⟩
      · exact .read a n rest he ha
      · exact .write a n v rest he ha
    | hardwareReset =>
      cases h
      exact .reset rest he

/-- The code of a cause is 1 to 8 (rule R160). -/
theorem code_bounds (c : Cause) : 1 ≤ c.code.toNat ∧ c.code.toNat ≤ 8 := by
  cases c <;> decide

end Sys2Proof.Machine
end

