-- ==== Sys2Proof/Tests/Slice0.lean ====
section
/-! SUPPORT. Checks of the model against the spec's own words and values (rule R97, the one-line
examples of the instruction rules, and 95_test_vectors.md, written "95" below), and a witness for
the hypotheses of every obligation that has some. -/

namespace Sys2Proof.Tests

open Sys2Proof.Machine

/-! ## Helpers -/

/-- A block with W = 64, the legal value where a width shows soonest. -/
def smallParams : Params := { nlimbs := 2, imemWords := 16, base := 0x8000 }

/-- An idle small block whose pc and listed registers are set. -/
def idleAt (pc : BitVec 16) (regs : List (Reg × Nat)) : State :=
  regs.foldl (fun s q => s.setReg q.1 q.2) { State.resetOf smallParams with pc := pc }

/-- The same block, running. -/
def runningAt (pc : BitVec 16) (regs : List (Reg × Nat)) : State :=
  { idleAt pc regs with busy := true }

/-- The block about to fetch the word. -/
def loaded (s : State) (w : Nat) : State := s.withFetchWord 32 w

def stateOf (o : StepResult) : Option State :=
  match o with
  | .next t => some t
  | _ => none

/-- One step from the loaded word writes the register, adds 1 to pc and changes nothing else. -/
def writes (s : State) (w : Nat) (rd : Reg) (v : Nat) : Bool :=
  stateOf (step (loaded s w)) == some { (loaded s w) with x := s.x.set rd.val v, pc := s.pc + 1 }

/-- One step from the loaded word sets pc and changes nothing else. -/
def movesTo (s : State) (w : Nat) (pc : BitVec 16) : Bool :=
  stateOf (step (loaded s w)) == some { (loaded s w) with pc := pc }

/-- One step from the loaded word takes the fault and changes nothing else. -/
def faultsWith (s : State) (w : Nat) (cause : BitVec 8) : Bool :=
  stateOf (step (loaded s w)) ==
    some { (loaded s w) with
             cause := cause, fpc := s.pc, finsn := BitVec.ofNat 32 w, fault := true, busy := false }

/-- The decoder reads the word as the instruction. -/
def reads (w : Word) (i : Instr) : Bool :=
  match decodeWord w with
  | .ok j => j == i
  | .error _ => false

/-- The decoder refuses the word. -/
def refuses (w : Word) : Bool :=
  match decodeWord w with
  | .ok _ => false
  | .error _ => true

/-- A host read at a window offset. -/
def hostRead (p : Params) (a : Nat) : Event := .access (.read (p.base + a) 4)

/-- A run that answers a next state. -/
def after (k : Nat) (s : State) : Option State :=
  match core.run k s with
  | .next t => some t
  | _ => none

/-! ## Well-formed terms -/

theorem test_illformed_immediate : Instr.wellFormed (.ldi 0 65536) = false := by decide
theorem test_illformed_target : Instr.wellFormed (.jmp 65536) = false := by decide
theorem test_illformed_offset_beq : Instr.wellFormed (.beq 0 0 32768) = false := by decide
theorem test_illformed_offset_bne : Instr.wellFormed (.bne 0 0 (-32769)) = false := by decide
theorem test_illformed_offset_bltu : Instr.wellFormed (.bltu 0 0 32768) = false := by decide
theorem test_illformed_offset_bgeu : Instr.wellFormed (.bgeu 0 0 (-32769)) = false := by decide

/-! ## Decoding: words written out bit by bit from rules R81 to R86 -/

theorem test_decode_control :
    reads 0b000001_00000000000000000000000000 .nop &&
    reads 0b000010_00000000000000000000000000 .halt &&
    reads 0b000011_0000000000_0000000000000010 (.jmp 2) &&
    reads 0b000100_0010_0001_00_0000000000000100 (.beq 2 1 4) &&
    reads 0b000101_0010_0001_00_1111111111111110 (.bne 2 1 (-2)) &&
    reads 0b000110_1100_0011_00_0111111111111111 (.bltu 12 3 32767) &&
    reads 0b000111_1110_0100_00_1000000000000000 (.bgeu 14 4 (-32768)) &&
    reads 0b001000_0101_000000_0000000000010000 (.ldi 5 16) &&
    reads 0b001001_1100_0011_0000_0000_0000000000 (.mov 12 3) = true := by decide

theorem test_decode_arith :
    reads 0b010000_0100_0011_0000_0000_0000000000 (.sqr 4 3) &&
    reads 0b010001_0101_0011_0000_0000_0000000000 (.inc 5 3) &&
    reads 0b010010_1000_0001_0000_0000_0000000000 (.dec 8 1) &&
    reads 0b010011_0110_1000_1001_0000_0000000000 (.lcm 6 8 9) &&
    reads 0b010100_1011_1010_0011_0000_0000000000 (.lfn 11 10 3) &&
    reads 0b010101_0011_0001_0010_0000_0000000000 (.mul 3 1 2) = true := by decide

theorem test_decode_modular :
    reads 0b011000_1010_0101_0110_0100_0000000000 (.modpow 10 5 6 4) &&
    reads 0b011001_0111_1011_0000_0011_0000000000 (.modinv 7 11 3) &&
    reads 0b011010_1110_1111_0000_0100_0000000000 (.modmul 14 15 0 4) &&
    reads 0b011011_0000_0001_0010_0100_0000000000 (.montmul 0 1 2 4) = true := by decide

/-- 95 part 2.1: a word of every illegal kind listed there. -/
theorem test_decode_illegal :
    refuses 0x00000000 && refuses 0x04000001 && refuses 0x08000001 && refuses 0x0C010002 &&
    refuses 0x10850004 && refuses 0x21410010 && refuses 0x24CC4000 && refuses 0x270C0400 &&
    refuses 0x410C0001 && refuses 0x4DA24400 && refuses 0x60C49001 && refuses 0x64A45000 &&
    refuses 0x64A41200 && refuses 0x6C049200 && refuses 0x28000000 && refuses 0x3C000000 &&
    refuses 0x58000000 && refuses 0x5C000000 && refuses 0x70000000 && refuses 0xFC000000 &&
    refuses 0xFFFFFFFF = true := by decide

theorem test_decodeTableWord :
    decodeTableWord 32 0x60C49000 = some (.modpow 3 1 2 4) ∧
    decodeTableWord 32 0x04000001 = none := by decide

/-- The fetched word is the placed one, at pc when pc is in IMEM and at 0 when it is not (log 7). -/
theorem test_withFetchWord :
    (loaded (idleAt 15 []) 0x21400010).fetch = some 0x21400010 ∧
    (loaded (idleAt 16 []) 0x21400010).fetch = some 0x21400010 ∧
    (loaded (idleAt 16 []) 0x21400010).pc = 0 := by decide

/-! ## Data movement and control transfer: the examples of rules R142 to R158. The states also meet
the hypotheses of the statement about the instruction, at both ends of its operand's range. -/

/-- R142: pc = 7; nop gives pc = 8. -/
theorem test_nop : movesTo (runningAt 7 [(3, 15)]) 0x04000000 8 = true := by decide

/-- R142: NOP at IMEM_WORDS - 1, then FETCH_RANGE. -/
theorem test_nop_at_the_end : smallParams.legal = true ∧
    (after 2 (loaded (runningAt 15 []) 0x04000000)).map (fun t => (t.cause, t.fpc, t.finsn)) =
      some (2, 16, 0) := by decide

/-- R145: pc = 5; jmp 2 gives pc = 2; and the largest target. -/
theorem test_jmp : movesTo (runningAt 5 []) 0x0C000002 2 = true ∧
    movesTo (runningAt 5 []) 0x0C00FFFF 0xFFFF = true := by decide

/-- R145: the step after a jump past IMEM raises FETCH_RANGE. -/
theorem test_jmp_past_imem :
    (after 2 (loaded (runningAt 5 []) 0x0C000010)).map (fun t => (t.cause, t.fpc, t.finsn, t.busy)) =
      some (2, 0x10, 0, false) := by decide

/-- R146: pc = 2, x[2] = x[1] = 0; beq r2, r1, +4 gives pc = 6; not taken, pc = 3. -/
theorem test_beq : movesTo (runningAt 2 []) 0x10840004 6 = true ∧
    movesTo (runningAt 2 [(2, 2 ^ 63)]) 0x10840004 3 = true := by decide

/-- R88: the offsets -32768 and 32767 from pc 2. -/
theorem test_beq_offset_ends : movesTo (runningAt 2 []) 0x10848000 0x8002 = true ∧
    movesTo (runningAt 2 []) 0x10847FFF 0x8001 = true := by decide

/-- R147: pc = 4, x[2] = 1, x[1] = 0; bne r2, r1, -2 gives pc = 2; equal, pc = 5. -/
theorem test_bne : movesTo (runningAt 4 [(2, 1)]) 0x1484FFFE 2 = true ∧
    movesTo (runningAt 4 []) 0x1484FFFE 5 = true := by decide

/-- R148: pc = 0, x[12] = 2, x[3] = 15; bltu r12, r3, +2 gives pc = 2; equal is not below; a value
with its top bit set is not negative. -/
theorem test_bltu : movesTo (runningAt 0 [(12, 2), (3, 15)]) 0x1B0C0002 2 = true ∧
    movesTo (runningAt 0 [(12, 15), (3, 15)]) 0x1B0C0002 1 = true ∧
    movesTo (runningAt 0 [(12, 2 ^ 64 - 1)]) 0x1B0C0002 1 = true := by decide

/-- R149: pc = 0, x[14] = x[4] = 225; bgeu r14, r4, +5 gives pc = 5; below, pc = 1. -/
theorem test_bgeu : movesTo (runningAt 0 [(14, 225), (4, 225)]) 0x1F900005 5 = true ∧
    movesTo (runningAt 0 [(14, 224), (4, 225)]) 0x1F900005 1 = true := by decide

/-- R143: ldi r0, 1; the largest immediate is not sign-extended; the smallest clears. -/
theorem test_ldi : writes (runningAt 0 []) 0x20000001 0 1 = true ∧
    writes (runningAt 0 []) 0x2000FFFF 0 65535 = true ∧
    writes (runningAt 0 [(0, 2 ^ 64 - 1)]) 0x20000000 0 0 = true := by decide

/-- R144: x[3] = 15; mov r12, r3 gives x[12] = 15. -/
theorem test_mov : writes (runningAt 0 [(3, 15)]) 0x270C0000 12 15 = true := by decide

/-- R158: pc = 9, halt at IMEM[9]: BUSY = 0, DONE = 1, pc = 9. -/
theorem test_halt :
    stateOf (step (loaded (runningAt 9 [(3, 15)]) 0x08000000)) =
      some { (loaded (runningAt 9 [(3, 15)]) 0x08000000) with busy := false, done := true } := by
  decide

/-- R158: a START without a PC write runs the HALT again; the hypotheses of
HaltEndsTheRun. -/
theorem test_halt_again :
    let s := { (loaded (idleAt 9 []) 0x08000000) with busy := false, done := true }
    s.fault = false ∧ s.pc.toNat < s.params.imemWords ∧ s.imemWord s.pc.toNat = 0x08000000 ∧
      (5#32).getLsbD 0 = true ∧ (5#32).getLsbD 1 = false ∧
      after 2 { s with env := [hostWrite s.params 0x008 5] } =
        some { s with env := [], irqEn := true } := by decide

/-! ## Integer arithmetic, 95 part 2.2. Each pair is the two sides of the rule's condition, so it
also witnesses every clause of the statement about the instruction. -/

theorem test_sqr : writes (runningAt 0 [(3, 2 ^ 32 - 1)]) 0x410C0000 4 (2 ^ 64 - 2 ^ 33 + 1) = true := by
  decide
theorem test_sqr_overflow : faultsWith (runningAt 0 [(3, 2 ^ 32)]) 0x410C0000 6 = true := by decide

theorem test_inc : writes (runningAt 0 [(3, 2 ^ 64 - 2)]) 0x454C0000 5 (2 ^ 64 - 1) = true := by decide
theorem test_inc_overflow : faultsWith (runningAt 0 [(3, 2 ^ 64 - 1)]) 0x454C0000 6 = true := by decide

theorem test_dec : writes (runningAt 0 [(1, 1)]) 0x4A040000 8 0 = true ∧
    writes (runningAt 0 [(1, 2 ^ 64 - 1)]) 0x48440000 1 (2 ^ 64 - 2) = true := by decide
theorem test_dec_range : faultsWith (runningAt 0 []) 0x4A040000 7 = true := by decide

theorem test_lcm :
    writes (runningAt 0 [(8, 2 ^ 32 + 1), (9, 2 ^ 32 - 1)]) 0x4DA24000 6 (2 ^ 64 - 1) = true ∧
    writes (runningAt 0 [(8, 0), (9, 7)]) 0x4DA24000 6 0 = true := by decide
theorem test_lcm_faults :
    faultsWith (runningAt 0 [(8, 0), (9, 0)]) 0x4DA24000 8 = true ∧
    faultsWith (runningAt 0 [(8, 2 ^ 32), (9, 2 ^ 32 + 1)]) 0x4DA24000 6 = true := by decide

theorem test_lfn :
    writes (runningAt 0 [(10, 62), (3, 15)]) 0x52E8C000 11 4 = true ∧
    writes (runningAt 0 [(10, 1), (3, 15)]) 0x52E8C000 11 0 = true := by decide
theorem test_lfn_faults :
    faultsWith (runningAt 0 [(10, 0), (3, 0)]) 0x52E8C000 8 = true ∧
    faultsWith (runningAt 0 [(10, 0), (3, 15)]) 0x52E8C000 7 = true := by decide

theorem test_mul : writes (runningAt 0 [(1, 0), (2, 2 ^ 64 - 1)]) 0x54C48000 3 0 = true ∧
    writes (runningAt 0 [(1, 7)]) 0x54444000 1 49 = true := by decide
theorem test_mul_overflow : faultsWith (runningAt 0 [(1, 2 ^ 32), (2, 2 ^ 32)]) 0x54C48000 6 = true := by
  decide

/-! ## Modular arithmetic, 95 part 2.3, likewise. -/

theorem test_modpow :
    writes (runningAt 0 [(5, 16), (6, 4), (4, 225)]) 0x62959000 10 61 = true ∧
    writes (runningAt 0 [(2, 0), (3, 0), (4, 225)]) 0x6048D000 1 1 = true ∧
    writes (runningAt 0 [(2, 0), (3, 0), (4, 1)]) 0x6048D000 1 0 = true ∧
    writes (runningAt 0 [(1, 2), (2, 10), (4, 1000)]) 0x61049000 4 24 = true := by decide
theorem test_modpow_zero : faultsWith (runningAt 0 [(2, 2), (3, 3)]) 0x6048D000 3 = true := by decide

theorem test_modinv :
    writes (runningAt 0 [(9, 379), (4, 225)]) 0x64A41000 2 19 = true ∧
    writes (runningAt 0 [(9, 0), (4, 1)]) 0x64A41000 2 0 = true := by decide
theorem test_modinv_faults :
    faultsWith (runningAt 0 [(9, 0), (4, 0)]) 0x64A41000 3 = true ∧
    faultsWith (runningAt 0 [(9, 15), (4, 225)]) 0x64A41000 5 = true := by decide

theorem test_modmul :
    writes (runningAt 0 [(15, 31), (0, 118), (4, 225)]) 0x6BBC1000 14 58 = true ∧
    writes (runningAt 0 [(8, 58), (9, 154), (4, 1)]) 0x68225000 0 0 = true := by decide
theorem test_modmul_zero : faultsWith (runningAt 0 [(8, 58), (9, 154)]) 0x68225000 3 = true := by decide

theorem test_montmul :
    writes (runningAt 0 [(1, 2), (2, 3), (4, 225)]) 0x6C049000 0 141 = true ∧
    writes (runningAt 0 [(1, 2), (2, 3), (4, 15)]) 0x6C049000 0 6 = true := by decide
theorem test_montmul_faults :
    faultsWith (runningAt 0 [(1, 2), (2, 3), (4, 0)]) 0x6C049000 3 = true ∧
    faultsWith (runningAt 0 [(1, 2), (2, 3), (4, 224)]) 0x6C049000 4 = true := by decide

/-- R131 with W = 512: 2 * 3 * 106 mod 225 = 186. -/
theorem test_montmul_512 : montProduct 512 2 3 225 = 186 := by decide +kernel

/-- TwoMontgomeryProductsMakeAModularProduct: 2 and 3 modulo 225 with R2 in r5. -/
theorem witness_two_montgomery_products :
    let s := runningAt 0 [(1, 2), (2, 3), (4, 225), (5, 2 ^ 128 % 225), (6, 2), (7, 128)]
    (0 : Reg) ≠ 4 ∧ (0 : Reg) ≠ 5 ∧ s.reg 4 % 2 = 1 ∧
      s.reg 5 = 2 ^ (2 * s.params.width) % s.reg 4 ∧ s.params.legal = true ∧ s.reg 6 = 2 ∧
      s.reg 7 = 2 * s.params.width ∧
      (stateOf (exec (.modmul 0 1 2 4) s)).map (fun t => t.reg 0) = some 6 ∧
      (stateOf (exec (.modpow 9 6 7 4) s)).map (fun t => t.reg 9) = some (2 ^ 128 % 225) := by decide

/-! ## Witnesses: states and operands that meet the hypotheses of the other obligations -/

/-- A running block with its program counter at the last word of IMEM, a NOP there. -/
def runningNop : State := loaded (runningAt 15 [(1, 2 ^ 64 - 1)]) 0x04000000

/-- The smallest, the largest and the default parameters are legal (ResetMeetsTheInvariant,
FirstRunOfBlankImemIsIllegal). -/
theorem witness_legal_params :
    Params.legal { nlimbs := 2, imemWords := 1, base := 0 } = true ∧
    Params.legal { nlimbs := 256, imemWords := 2048, base := 0xFFFF8000 } = true ∧
    Params.legal { nlimbs := 1, imemWords := 1, base := 0 } = false ∧
    Params.legal { nlimbs := 2, imemWords := 2049, base := 0 } = false ∧
    Params.legal { nlimbs := 2, imemWords := 1, base := 0x4000 } = false ∧
    Params.legal Params.default = true := by decide

/-- A running state meets the invariant with the largest register value, and steps
(StepKeepsTheInvariant, StepKeepsParamsAndConsumesOneEvent, RunGoesOnOrEndsInHaltOrFault,
InstructionsChangeOnlyWhatTheyName, ProgramAndOperandsAreFixedDuringARun). -/
theorem witness_running : runningNop.Inv ∧ runningNop.env = [] ∧ runningNop.busy = true ∧
    runningNop.pc.toNat < runningNop.params.imemWords ∧
    step runningNop = .next { runningNop with pc := 16 } :=
  ⟨⟨by decide, by decide, by decide, by decide, by decide, by decide, by decide⟩,
    by decide, by decide, by decide, by rfl⟩

/-- An idle state with a value in every kind of place meets the invariant (StepKeepsTheInvariant,
RegisterWindowHoldsTheLimbs, RegisterWindowWriteReplacesOneLimb, ImemWindowReadsAndWritesWords,
ReadsAreFreeOfSideEffects). -/
def idleFull : State :=
  { idleAt 9 [(0, 0x1122334455667788), (15, 2 ^ 64 - 1)] with
      imem := [(0x2003, 0x08), (0x203F, 0x04)], done := true, werr := true, irqEn := true, cause := 8,
      fpc := 0xFFFF, finsn := 0xFFFFFFFF }

theorem witness_idle : idleFull.Inv ∧ idleFull.busy = false :=
  ⟨⟨by decide, by decide, by decide, by decide, by decide, by decide, by decide⟩, rfl⟩

/-- StepStopsOnlyOutsideTheWindow: the addresses just below and just above the window stop, the
first and last inside do not. -/
theorem witness_outside_window :
    stateOf (step { idleFull with env := [.access (.read 0x7FFF 4)] }) = none ∧
    stateOf (step { idleFull with env := [.access (.write 0x10000 4 0)] }) = none ∧
    (stateOf (step { idleFull with env := [.access (.read 0x8000 4)] })).isSome = true ∧
    (stateOf (step { idleFull with env := [.access (.read 0xFFFC 4)] })).isSome = true := by decide

/-- HardwareResetClearsTheBlock (R39): whatever came before. -/
theorem witness_hardware_reset :
    after 1 { runningNop with env := [.hardwareReset], irqEn := true } =
      some (State.resetOf smallParams) := by decide

/-- DecodeOfEncodeIsTheInstruction: operands at both ends of their ranges. -/
theorem witness_well_formed :
    Instr.wellFormed (.beq 15 0 (-32768)) && Instr.wellFormed (.bgeu 0 15 32767) &&
    Instr.wellFormed (.ldi 15 65535) && Instr.wellFormed (.jmp 65535) && Instr.wellFormed (.jmp 0) &&
    Instr.wellFormed (.montmul 15 15 15 15) = true := by decide

/-- NoTwoRowsMatchOneWord and EncodeOfDecodeIsTheWord: a word that a row matches. -/
theorem witness_row : reads 0x6FFFFC00 (.montmul 15 15 15 15) = true ∧
    (0x6FFFFC00#32 &&& opcodeMap[18].mask) = opcodeMap[18].pattern := by decide

/-- EveryWordIsOneInstructionOrIllegal: the ends of each range of reserved opcodes fault, fetched
from the last word of IMEM. -/
theorem witness_reserved :
    ([0x00, 0x0A, 0x0F, 0x16, 0x17, 0x1C, 0x3F].all fun op =>
      faultsWith (runningAt 15 []) (op * 2 ^ 26) 1) = true := by decide

/-- MustBeZeroBitsAreChecked: for each opcode a word with none of its must-be-zero bits, which
decodes, and one with all of them, which does not (masks of the bits rule R91 lists). -/
theorem witness_must_be_zero :
    ([(0x01, 0x03FFFFFF), (0x02, 0x03FFFFFF), (0x03, 0x03FF0000), (0x04, 0x00030000),
      (0x05, 0x00030000), (0x06, 0x00030000), (0x07, 0x00030000), (0x08, 0x003F0000),
      (0x09, 0x0003FFFF), (0x10, 0x0003FFFF), (0x11, 0x0003FFFF), (0x12, 0x0003FFFF),
      (0x13, 0x00003FFF), (0x14, 0x00003FFF), (0x15, 0x00003FFF), (0x18, 0x000003FF),
      (0x19, 0x0003C3FF), (0x1A, 0x000003FF), (0x1B, 0x000003FF)].all fun q : Nat × Nat =>
        !refuses (BitVec.ofNat 32 (q.1 * 2 ^ 26)) && refuses (BitVec.ofNat 32 (q.1 * 2 ^ 26 + q.2)))
      = true := by decide

/-- StepRunsTheDecodedInstruction: the sequencer's event is consumed and the instruction runs. -/
theorem witness_sequencer_event :
    after 1 { runningNop with env := [.sequencer, .hardwareReset] } =
      some { runningNop with pc := 16, env := [.hardwareReset] } := by decide

/-- FetchPastImemRaisesFetchRange: at IMEM_WORDS and at the largest pc. -/
theorem witness_fetch_range :
    after 1 (runningAt 16 []) =
      some { runningAt 16 [] with cause := 2, fpc := 16, fault := true, busy := false } ∧
    after 1 (runningAt 0xFFFF []) =
      some { runningAt 0xFFFF [] with cause := 2, fpc := 0xFFFF, fault := true, busy := false } := by
  decide

/-- The sequencer's event listed before others (EveryWordIsOneInstructionOrIllegal,
MustBeZeroBitsAreChecked, FetchPastImemRaisesFetchRange, FaultsArePreciseAndRecorded,
RestartAfterAFaultFaultsAgain, NopAdvancesPcOnly, JmpSetsPc): the premise holds both ways. -/
theorem witness_sequencer_next (s : State) (later : List Event) :
    SequencerNext { s with env := .sequencer :: later } later ∧
      SequencerNext { s with env := [] } [] := ⟨.inr rfl, .inl ⟨rfl, rfl⟩⟩

/-- The faults at a listed sequencer's event: a reserved opcode (R92), a must-be-zero bit (R91) and pc
at IMEM_WORDS (R80), each with a host read of CAUSE after it, which is answered. -/
theorem witness_fault_then_read :
    ([loaded (runningAt 15 []) 0x28000000, loaded (runningAt 15 []) 0x04000001, runningAt 16 []].map
      fun s => (after 2 { s with env := [.sequencer, hostRead smallParams 0x014] }).map
        fun t => (t.fault, t.busy, t.fpc, t.replies)) =
      [some (true, false, 15, [1]), some (true, false, 15, [1]), some (true, false, 16, [2])] := by
  decide

/-- RunGoesOnOrEndsInHaltOrFault at a listed sequencer's event: HALT, then a read of STATUS (R29). -/
theorem witness_halt_then_read :
    (after 2 { loaded (runningAt 9 []) 0x08000000 with
      env := [.sequencer, hostRead smallParams 0x00C] }).map (fun t => (t.done, t.replies)) =
      some (true, [2]) := by decide

/-- InstructionsReadOnlyTheirSources: r5 is no source of mov r1, r2; the destination r1 may be one
that is set beforehand. -/
theorem witness_not_a_source : (5 : Reg) ∉ (Instr.mov 1 2).sources ∧
    (1 : Reg) ∉ (Instr.mov 1 2).sources ∧
    (stateOf (exec (.mov 1 2) (runningAt 0 []))).isSome = true := by decide

/-- PcAdvancesUnlessTransferred: an instruction at the largest index wraps pc to 0 (R24). -/
theorem witness_pc_wraps : (runningAt 0xFFFF []).fault = false ∧
    (stateOf (exec (.ldi 0 1) (runningAt 0xFFFF []))).map (fun t => (t.pc, t.fault)) =
      some (0, false) := by decide

/-- EachInstructionRaisesOnlyItsCauses and FaultsArePreciseAndRecorded: a state without FAULT whose
step has it; the tests of the families hold the others. -/
theorem witness_fault :
    let s := loaded (runningAt 0 []) 0x4A040000
    s.fault = false ∧ s.env = [] ∧ s.busy = true ∧
      (after 1 s).map (fun t => (t.fault, t.cause, t.fpc, t.finsn)) =
        some (true, 7, 0, 0x4A040000) := by decide

/-- RunGoesOnOrEndsInHaltOrFault: IRQ when a run with IRQ_EN halts (R35, R158). -/
theorem witness_irq :
    (after 1 { loaded (runningAt 9 []) 0x08000000 with irqEn := true }).map
      (fun t => (t.busy, t.done, t.fault, t.irq)) = some (false, true, false, true) := by decide

/-- IdleBlockStaysIdleUntilStarted and StartNeedsAnIdleUnfaultedBlock: START with IRQ_EN is accepted
when idle, refused while BUSY and while FAULT (R177). -/
theorem witness_start :
    after 1 { idleAt 3 [] with env := [hostWrite smallParams 0x008 5], done := true } =
      some { idleAt 3 [] with irqEn := true, busy := true } ∧
    after 1 { runningAt 3 [] with env := [hostWrite smallParams 0x008 1], irqEn := true } =
      some { runningAt 3 [] with werr := true } ∧
    after 1 { idleAt 3 [] with env := [hostWrite smallParams 0x008 1], fault := true } =
      some { idleAt 3 [] with werr := true, fault := true } := by decide

/-- RestartAfterAFaultFaultsAgain: dec of 0, with IRQ_EN 0 and 1. The state meets the invariant. -/
theorem witness_restart :
    let s := loaded (runningAt 0 []) 0x4A040000
    let t := { s with cause := 7, fpc := 0, finsn := 0x4A040000, fault := true, busy := false }
    s.Inv ∧ step s = .next t ∧ after 3 { t with env := [hostWrite smallParams 0x00C 4,
      hostWrite smallParams 0x008 1, .sequencer] } = some t ∧
    after 3 { t with irqEn := true, env := restartAfterFault smallParams true ++ [.sequencer] } =
      some { t with irqEn := true } :=
  ⟨⟨by decide, by decide, by decide, by decide, by decide, by decide, by decide⟩, by rfl,
    by decide, by decide⟩

/-- HostEventIsTheWindowAccess: a reply is kept; the last byte of the window is rejected (R55). -/
theorem witness_host_event :
    (after 2 { idleFull with env := [hostRead smallParams 0, .access (.read 0xFFFF 1)] }).map
      (fun t => (t.replies, t.werr)) = some ([0x4D4D0100, 0], true) := by decide

/-- MemReadReturnsTheItem (R51, R69): each item, at the first and last offset of its range and at the
first and last unmapped one, and the two kinds of rejected access. -/
theorem witness_mem_read :
    ([0x000, 0x004, 0x008, 0x00C, 0x010, 0x014, 0x018, 0x01C, 0x020, 0x1FFC, 0x2000, 0x203C,
      0x2040, 0x3FFC].map fun a => (memRead a 4 idleFull).1) =
      [0x4D4D0100, 0x00100002, 4, 0xA, 9, 8, 0xFFFF, 0xFFFFFFFF, 0, 0, 0x08000000, 0x04000000,
        0, 0] ∧
    ([0x4000, 0x4004, 0x4078, 0x407C, 0x4080, 0x7FFC].map fun a => (memRead a 4 idleFull).1) =
      [0x55667788, 0x11223344, 0xFFFFFFFF, 0xFFFFFFFF, 0, 0] ∧
    memRead 0x000 2 (idleAt 0 []) = (0, { idleAt 0 [] with werr := true }) ∧
    memRead 0x002 4 (idleAt 0 []) = (0, { idleAt 0 [] with werr := true }) := by decide

/-- MemWriteHasItsEffect (R69): CTRL, STATUS, PC, and what ignores a write. -/
theorem witness_mem_write_registers :
    memWrite 0x008 4 7 idleFull =
      { State.resetOf smallParams with imem := idleFull.imem } ∧
    memWrite 0x008 4 0 idleFull = { idleFull with irqEn := false } ∧
    memWrite 0x00C 4 0xFFFFFFFF idleFull = { idleFull with done := false, werr := false } ∧
    memWrite 0x00C 4 1 idleFull = idleFull ∧
    memWrite 0x010 4 0x1FFFF idleFull = { idleFull with pc := 0xFFFF } ∧
    memWrite 0x000 4 1 idleFull = idleFull ∧ memWrite 0x01C 4 0 idleFull = idleFull ∧
    memWrite 0x2040 4 1 idleFull = idleFull ∧ memWrite 0x4080 4 1 idleFull = idleFull ∧
    memWrite 0x010 1 0 (idleAt 5 []) = { idleAt 5 [] with werr := true } := by decide

/-- MemWriteHasItsEffect, ImemWindowReadsAndWritesWords and RegisterWindowWriteReplacesOneLimb: the
first and last word of IMEM and limb of the register window, low byte at the lowest offset (R53). -/
theorem witness_mem_write_windows :
    (memWrite 0x2000 4 0x04030201 (idleAt 0 [])).imem =
      [(0x2000, 1), (0x2001, 2), (0x2002, 3), (0x2003, 4)] ∧
    (memWrite 0x203C 4 0 idleFull).imem = [(0x2003, 0x08)] ∧
    (memWrite 0x4004 4 0xAABBCCDD idleFull).reg 0 = 0xAABBCCDD55667788 ∧
    (memWrite 0x407C 4 0 idleFull).reg 15 = 2 ^ 32 - 1 := by decide

/-- RunRejectsHostWrites: a running state, one offset of each kind (R58). -/
theorem witness_run_rejects :
    ([0x010, 0x2000, 0x203C, 0x4000, 0x407C].all fun a =>
      memWrite a 4 0xFFFFFFFF runningNop == { runningNop with werr := true }) = true ∧
    memWrite 0x008 4 5 runningNop = { runningNop with irqEn := true, werr := true } ∧
    memWrite 0x00C 4 8 { runningNop with werr := true } = runningNop := by decide

/-- SoftResetClearsAllButImem: during a run, with START and IRQ_EN in the same write (R191). -/
theorem witness_soft_reset :
    after 1 { runningNop with env := [hostWrite smallParams 0x008 7] } =
      some { State.resetOf smallParams with imem := runningNop.imem } := by decide

/-- ReadsAreFreeOfSideEffects: a CTRL write with neither START nor SRST, and the ends of the ranges. -/
theorem witness_idempotent : (4#32).getLsbD 0 = false ∧ (4#32).getLsbD 1 = false ∧
    ([0x010, 0x008, 0x2000, 0x203C, 0x4000, 0x407C].all fun a =>
      memWrite a 4 4 (memWrite a 4 4 idleFull) == memWrite a 4 4 idleFull) = true := by decide

/-- ResultsStandUntilTheHostWrites: an idle state that steps. -/
theorem witness_idle_step : after 1 { idleFull with env := [hostRead smallParams 0x00C] } =
    some { idleFull with replies := [0xA] } := by decide

/-- BringUpStartsTheProgramOnItsOperands: a program that fills IMEM, two whole operands, the last
register among them, PC written and WERR cleared. -/
theorem witness_bring_up :
    let program := List.replicate 15 0x04000000#32 ++ [0x08000000#32]
    let events := bringUp smallParams program [(15, 2 ^ 64 - 1), (0, 7)] (some 15) true true
    let t := after events.length { idleFull with env := events }
    program.length = idleFull.params.imemWords ∧ idleFull.fault = false ∧ idleFull.werr = true ∧
      t.map (fun t => (t.imemWord 0, t.imemWord 15, t.reg 15, t.reg 0)) =
        some (0x04000000, 0x08000000, 2 ^ 64 - 1, 7) ∧
      t.map (fun t => (t.pc, t.werr, t.irqEn, t.busy, t.done)) =
        some (15, false, true, true, false) := by decide

/-- BringUpStartsTheProgramOnItsOperands: neither PC nor WERR written by the host (R194 steps 5, 6). -/
theorem witness_bring_up_bare :
    let events := bringUp smallParams [0x08000000#32] [] none false false
    (after events.length { idleFull with env := events }).map
      (fun t => (t.imemWord 0, t.pc, t.werr, t.irqEn, t.busy)) =
        some (0x08000000, idleFull.pc, true, false, true) := by decide

/-! ## The assembler -/

/-- AssemblerPlacesEachLine: a counted loop with a label before and behind, the words of P5's branch
and jump in 95. -/
theorem test_assemble :
    assemble [.instr (.ldi 2 3), .instr .nop, .label 0, .beqTo 2 1 1, .instr (.dec 2 2), .instr .nop,
      .jmpTo 0, .label 1, .instr .halt, .word 7] =
      some [0x20800003, 0x04000000, 0x10840004, 0x48880000, 0x04000000, 0x0C000002, 0x08000000, 7] := by
  decide

/-- A label defined twice stands for its first place (log 22). -/
theorem test_assemble_label_twice :
    assemble [.label 0, .instr .nop, .label 0, .jmpTo 0] = some [0x04000000, 0x0C000000] := by decide

/-- A label before a `.word`, and one with no line after it: the count of words before it (log 22). -/
theorem test_assemble_label_before_word :
    assemble [.jmpTo 0, .jmpTo 1, .label 0, .word 7, .label 1] =
      some [0x0C000002, 0x0C000003, 7] := by decide

/-- R95: an operand out of range and a label that is not there are refused. -/
theorem test_assemble_refuses : assemble [.instr (.ldi 0 65536)] = none ∧
    assemble [.jmpTo 0] = none := by decide

/-- R96. -/
theorem test_pseudo : encode (pseudoLi 5 16) = 0x21400010 ∧ encode (pseudoClr 1) = 0x20400000 ∧
    encode (pseudoB 2) = 0x0C000002 ∧ pseudoBgtu 3 12 2 = .bltu 12 3 2 ∧
    pseudoBleu 4 14 5 = .bgeu 14 4 5 := by decide

/-- R95 and R97: the text of the words above. -/
theorem test_text : instrText (.modpow 3 1 2 4) = "modpow r3, r1, r2, r4" ∧
    instrText (.bne 2 1 (-2)) = "bne r2, r1, -2" ∧ instrText (.beq 2 1 4) = "beq r2, r1, +4" ∧
    instrText .halt = "halt" := by decide

/-! ## The functional units -/

/-- CiosComputesTheMontgomeryProduct: one limb and two, and operands above the modulus; 141 is R131's
value for W = 64 in 95. -/
theorem witness_cios : 225 % 2 = 1 ∧ 225 < 2 ^ (32 * 1) ∧ 225 < 2 ^ (32 * 2) ∧
    ciosProduct 2 2 3 225 = 141 ∧ ciosProduct 2 227 228 225 = 141 ∧ ciosProduct 2 2 3 1 = 0 := by
  decide

/-- LadderComputesThePower: R121's example and m = 1. -/
theorem witness_ladder : 225 % 2 = 1 ∧ 4 < 2 ^ 3 ∧ ladderPow 3 16 4 225 = 61 ∧
    ladderPow 3 5 3 1 = 0 := by decide

/-- InverseEngineComputesTheInverse: R125's examples, both outcomes, and m = 1. -/
theorem witness_inverse_engine : inverseEngine 154 225 = some 19 ∧ inverseEngine 15 225 = none ∧
    inverseEngine 0 1 = some 0 ∧ inverseEngine 0 225 = none := by decide

end Sys2Proof.Tests
end

section
/-! Lemmas about what a step, an instruction and a host access can do that the laws above do not say,
and the proofs of the statements about the block as a whole that rest on them. -/

namespace Sys2Proof.Machine

/-! ## One step: parameters, events and replies -/

/-- The parameters are fixed, one event is taken, and at most one word is kept for the host. -/
theorem stepEffect_params_env_replies {s t : State} (h : StepEffect s t) :
    t.params = s.params ∧ t.env = s.env.tail ∧
      (t.replies = s.replies ∨ ∃ v : Word, t.replies = s.replies ++ [v]) := by
  cases h with
  | idle rest he _ => exact ⟨rfl, he.tail, .inl rfl⟩
  | runs rest _ he _ hr =>
    obtain ⟨hparams, -, -, -, henv, hreplies⟩ := seqEffect_frame hr
    exact ⟨hparams, henv.trans he.tail, .inl hreplies⟩
  | read a n rest he _ =>
    rw [answerRead_frame, he]
    exact ⟨rfl, rfl, .inr ⟨_, rfl⟩⟩
  | write a n v rest he _ =>
    obtain ⟨hparams, henv, hreplies⟩ := memWrite_frame a n v { s with env := rest }
    rw [he]
    exact ⟨hparams, henv, .inl hreplies⟩
  | reset rest he =>
    rw [he]
    exact ⟨rfl, rfl, .inl rfl⟩

/-! ## Accesses outside the window -/

/-- The bus address of a host access (rule R69). -/
def HostAccess.addr : HostAccess → Nat
  | .read addr _ => addr
  | .write addr _ _ => addr

theorem windowOffset_eq_none {p : Params} {addr : Nat} :
    windowOffset p addr = none ↔ addr < p.base ∨ p.base + 0x8000 ≤ addr := by
  rw [windowOffset, ite_eq_right_iff, Config.windowSize]
  simp only [reduceCtorEq, imp_false]
  omega

theorem hostAccess_outside {h : HostAccess} {s : State} (hw : windowOffset s.params h.addr = none) :
    hostAccess h s = .fault (.outsideWindow h.addr) := by
  cases h <;> simp_all [hostAccess, HostAccess.addr]

theorem hostAccess_inside {h : HostAccess} {s : State} {a : Nat}
    (hw : windowOffset s.params h.addr = some a) : ∃ t, hostAccess h s = .next t := by
  cases h <;> simp_all [hostAccess, HostAccess.addr]

/-- A host access is answered, or its address is outside the window and the model stops on it. -/
theorem hostAccess_next_or_outside (h : HostAccess) (s : State) : (∃ t, hostAccess h s = .next t) ∨
    (h.addr < s.params.base ∨ s.params.base + 0x8000 ≤ h.addr) ∧
      hostAccess h s = .fault (.outsideWindow h.addr) := by
  cases hw : windowOffset s.params h.addr with
  | none => exact .inr ⟨windowOffset_eq_none.1 hw, hostAccess_outside hw⟩
  | some a => exact .inl (hostAccess_inside hw)

/-- The sequencer's turn never stops the model (rule R12). -/
theorem step_next_of_sequencerNext {s : State} {rest : List Event} (h : SequencerNext s rest) :
    ∃ t, step s = .next t := by
  obtain ⟨t, ht, -⟩ := seqTurn_next { s with env := rest }
  exact ⟨t, (step_of_sequencerNext h).trans ht⟩

/-- A step is answered unless its event is a host access outside the window. -/
theorem step_next_or_outside (s : State) : (∃ t, step s = .next t) ∨
    ∃ (h : HostAccess) (rest : List Event), s.env = .access h :: rest ∧
      (h.addr < s.params.base ∨ s.params.base + 0x8000 ≤ h.addr) ∧
      step s = .fault (.outsideWindow h.addr) := by
  cases he : s.env with
  | nil => exact .inl (step_next_of_sequencerNext (.inl ⟨he, rfl⟩))
  | cons e rest =>
    cases e with
    | sequencer => exact .inl (step_next_of_sequencerNext (.inr he))
    | hardwareReset => exact .inl ⟨_, step_cons he⟩
    | access h =>
      rw [step_cons he]
      exact (hostAccess_next_or_outside h { s with env := rest }).imp_right
        fun ⟨hout, hstop⟩ => ⟨h, rest, rfl, hout, hstop⟩

/-! ## The frame of an instruction -/

/-- Only the destination register is written (rule R22). -/
theorem effect_reg {i : Instr} {s t : State} (h : Effect i s t) {r : Reg} (hr : i.dest ≠ some r) :
    t.reg r = s.reg r := by
  cases h with
  | faults => rfl
  | halts => rfl
  | transfers => rfl
  | retires rd v hd _ =>
    have hne : r ≠ rd := fun e => hr (e ▸ hd)
    rw [reg_retire, if_neg hne]

/-- Status changes only by a fault entry (rule R163) or by HALT (rule R158). -/
theorem effect_status {i : Instr} {s t : State} (h : Effect i s t) :
    (∃ c, t = takeFault c (encode i) s) ∨ (i = .halt ∧ t = haltRun s) ∨
      (t.busy = s.busy ∧ t.done = s.done ∧ t.fault = s.fault ∧ t.cause = s.cause ∧
        t.fpc = s.fpc ∧ t.finsn = s.finsn) := by
  cases h with
  | faults c => exact .inl ⟨c, rfl⟩
  | halts hi => exact .inr (.inl ⟨hi, rfl⟩)
  | retires => exact .inr (.inr ⟨rfl, rfl, rfl, rfl, rfl, rfl⟩)
  | transfers => exact .inr (.inr ⟨rfl, rfl, rfl, rfl, rfl, rfl⟩)

/-! ## The status of a run -/

/-- BUSY, DONE and FAULT of a run that goes on, has halted or has faulted (rules R12, R29). -/
def State.RunStatus (s : State) : Prop :=
  (s.busy = true ∧ s.done = false ∧ s.fault = false) ∨
    (s.busy = false ∧ s.done = true ∧ s.fault = false) ∨
    (s.busy = false ∧ s.done = false ∧ s.fault = true)

theorem takeFault_runStatus {s : State} (hd : s.done = false) (c : Cause) (w : Word) :
    (takeFault c w s).RunStatus := .inr (.inr ⟨rfl, hd, rfl⟩)

theorem haltRun_runStatus {s : State} (hf : s.fault = false) : (haltRun s).RunStatus :=
  .inr (.inl ⟨rfl, rfl, hf⟩)

/-- The sequencer's step of a run leaves one of the three. -/
theorem seqEffect_runStatus {s t : State} (h : SeqEffect s t) (hb : s.busy = true)
    (hd : s.done = false) (hf : s.fault = false) : t.RunStatus := by
  cases h with
  | fetchRange => exact takeFault_runStatus hd _ _
  | illegal => exact takeFault_runStatus hd _ _
  | runs i _ _ _ _ he =>
    rcases effect_status he with ⟨c, rfl⟩ | ⟨-, rfl⟩ | ⟨hbusy, hdone, hfault, -⟩
    · exact takeFault_runStatus hd _ _
    · exact haltRun_runStatus hf
    · exact .inl ⟨hbusy.trans hb, hdone.trans hd, hfault.trans hf⟩

/-- IRQ is low while the run goes on and is IRQ_EN once it has ended (rules R35, R168). -/
theorem State.RunStatus.irq_eq {s : State} (h : s.RunStatus) : s.irq = (s.irqEn && !s.busy) := by
  rcases h with ⟨hb, hd, hf⟩ | ⟨hb, hd, hf⟩ | ⟨hb, hd, hf⟩ <;> simp [State.irq, hb, hd, hf]

end Sys2Proof.Machine

namespace Sys2Proof.Proofs

open Sys2Proof Sys2Proof.Machine

/-- Settles O3, from what each kind of event does to the three fields. -/
theorem stepKeepsParamsAndConsumesOneEvent : Obligations.StepKeepsParamsAndConsumesOneEvent :=
  fun _ _ h => stepEffect_params_env_replies (step_effect h)

/-- Settles O4: the window check is the one branch of a step that stops. -/
theorem stepStopsOnlyOutsideTheWindow : Obligations.StepStopsOnlyOutsideTheWindow := by
  intro s
  refine (step_next_or_outside s).imp_right ?_
  rintro ⟨h, rest, he, hout, hstop⟩
  cases h with
  | read addr size => exact ⟨addr, size, 0, rest, .inl he, hout, hstop⟩
  | write addr size v => exact ⟨addr, size, v, rest, .inr he, hout, hstop⟩

/-- Settles O35, from the four effects an instruction can have. -/
theorem instructionsChangeOnlyWhatTheyName : Obligations.InstructionsChangeOnlyWhatTheyName := by
  intro i s t h
  have he := effect_of_exec h
  obtain ⟨hparams, himem, hwerr, hirqEn, henv, hreplies⟩ := effect_frame he
  refine ⟨fun _ => effect_reg he, fun _ => by rw [himem], hparams, hwerr, hirqEn, henv, hreplies, ?_⟩
  exact (effect_status he).imp_left fun ⟨c, hc⟩ => ⟨c.code, hc⟩

/-- Settles O40: the invariant gives DONE = FAULT = 0 before the step, and the sequencer's effect gives
the status after it, from which IRQ follows. -/
theorem runGoesOnOrEndsInHaltOrFault : Obligations.RunGoesOnOrEndsInHaltOrFault := by
  intro s t rest hinv hnext hb h
  obtain ⟨hd, hf⟩ := hinv.busy_idle hb
  obtain ⟨t', ht, he⟩ := seqStep_effect { s with env := rest }
  rw [step_of_sequencerNext_busy hnext hb, ht] at h
  cases h
  have hstatus : t.RunStatus := seqEffect_runStatus he hb hd hf
  obtain ⟨-, -, -, hirqEn, -, -⟩ := seqEffect_frame he
  refine ⟨hstatus, by simp [State.irq, hd, hf], ?_⟩
  rw [hstatus.irq_eq, hirqEn]

end Sys2Proof.Proofs
end

section
/-! The invariant kept by every operation, what an instruction reads, and the way out of idle; and the
proofs of the statements about the state that rest on them. -/

namespace Sys2Proof.Machine

/-! ## The invariant through the updates -/

theorem State.Inv.setEnv {s : State} (h : s.Inv) (rest : List Event) :
    { s with env := rest }.Inv := { h with }

theorem State.Inv.setWerr {s : State} (h : s.Inv) (b : Bool) : { s with werr := b }.Inv := { h with }

theorem State.Inv.setIrqEn {s : State} (h : s.Inv) (b : Bool) : { s with irqEn := b }.Inv := { h with }

theorem State.Inv.jumpTo {s : State} (h : s.Inv) (a : BitVec 16) : (jumpTo a s).Inv := { h with }

/-- A register may take any value of the width (rule R21). -/
theorem State.Inv.setReg {s : State} (h : s.Inv) (r : Reg) {v : Nat} (hv : v < 2 ^ s.params.width) :
    (s.setReg r v).Inv where
  __ := h
  regs_fit q := by
    rw [reg_setReg]
    split
    · exact hv
    · exact h.regs_fit q

theorem State.Inv.retire {s : State} (h : s.Inv) (rd : Reg) {v : Nat}
    (hv : v < 2 ^ s.params.width) : (retire rd v s).Inv :=
  (h.setReg rd hv).jumpTo _

/-- A word of IMEM may take any value (rule R54). -/
theorem State.Inv.setImemWord {s : State} (h : s.Inv) {i : Nat} (hi : i < s.params.imemWords)
    (v : Word) : (State.setImemWord i v s).Inv where
  __ := h
  imem_wf := Memory.wf_writeWord h.imem_wf _ v
  imem_in := Memory.inImem_writeWord h.imem_in hi v

/-- A fault entry ends the run, whose DONE is 0 (rules R29, R163). -/
theorem State.Inv.takeFault {s : State} (h : s.Inv) (hb : s.busy = true) (c : Cause) (w : Word) :
    (takeFault c w s).Inv where
  __ := h
  done_fault := by simp [(h.busy_idle hb).1]
  busy_idle := by simp
  cause_code := (code_bounds c).2

/-- HALT ends the run, whose FAULT is 0 (rules R29, R158). -/
theorem State.Inv.haltRun {s : State} (h : s.Inv) (hb : s.busy = true) : (haltRun s).Inv where
  __ := h
  done_fault := by simp [(h.busy_idle hb).2]
  busy_idle := by simp

/-- A START is refused, or begins a run with DONE and FAULT 0 (rule R177). -/
theorem State.Inv.start {s : State} (h : s.Inv) : (start s).Inv := by
  by_cases hr : s.busy = true ∨ s.fault = true
  · rw [start_refused hr]
    exact h.setWerr true
  · obtain ⟨hb, hf⟩ : s.busy = false ∧ s.fault = false := by simpa using hr
    rw [start_accepted hb hf]
    exact { h with done_fault := by simp, busy_idle := fun _ => ⟨rfl, hf⟩ }

/-- Clearing status bits sets none (rule R29). -/
theorem State.Inv.clearStatus {s : State} (h : s.Inv) (v : Word) : (clearStatus v s).Inv where
  __ := h
  done_fault := by
    have := h.done_fault
    simp only [clearStatus_done, clearStatus_fault, Bool.and_eq_true]
    tauto
  busy_idle hb := by
    obtain ⟨hd, hf⟩ := h.busy_idle hb
    simp [hd, hf]

/-- An idle block with zero registers and no status meets the invariant if its IMEM does
(rule R39). -/
theorem State.Inv.of_cleared {s : State} (hparams : s.params.legal = true)
    (hx : s.x = Vector.replicate 16 0) (hwf : s.imem.wf = true)
    (hin : s.imem.inImem s.params = true) (hbusy : s.busy = false) (hdone : s.done = false)
    (hcause : s.cause = 0) : s.Inv where
  params_legal := hparams
  regs_fit r := by rw [reg_of_zeroes hx]; positivity
  imem_wf := hwf
  imem_in := hin
  done_fault := by simp [hdone]
  busy_idle := by simp [hbusy]
  cause_code := by simp [hcause]

theorem State.Inv.resetOf {p : Params} (hp : p.legal = true) : (State.resetOf p).Inv :=
  .of_cleared hp rfl rfl rfl rfl rfl rfl

theorem State.Inv.softReset {s : State} (h : s.Inv) : (softReset s).Inv :=
  .of_cleared h.params_legal rfl h.imem_wf h.imem_in rfl rfl rfl

theorem State.Inv.hardReset {s : State} (h : s.Inv) : (hardReset s).Inv :=
  .of_cleared h.params_legal rfl rfl rfl rfl rfl rfl

/-! ## The invariant through the events -/

/-- An instruction of a run keeps the invariant. -/
theorem State.Inv.effect {i : Instr} {s t : State} (h : s.Inv) (hb : s.busy = true)
    (he : Effect i s t) : t.Inv := by
  cases he with
  | faults c => exact h.takeFault hb c _
  | retires rd v _ hv => exact h.retire rd (hv h.params_legal h.regs_fit)
  | transfers a => exact h.jumpTo a
  | halts => exact h.haltRun hb

/-- The sequencer's step of a run keeps the invariant. -/
theorem State.Inv.seqEffect {s t : State} (h : s.Inv) (hb : s.busy = true) (he : SeqEffect s t) :
    t.Inv := by
  cases he with
  | fetchRange => exact h.takeFault hb _ _
  | illegal => exact h.takeFault hb _ _
  | runs i _ _ _ _ he => exact h.effect hb he

theorem State.Inv.whileIdle {s : State} (h : s.Inv) (f : State → State) (hf : (f s).Inv) :
    (whileIdle f s).Inv := by
  unfold Machine.whileIdle
  split
  · exact h.setWerr true
  · exact hf

theorem State.Inv.writeCtrl {s : State} (h : s.Inv) (v : Word) : (writeCtrl v s).Inv := by
  unfold Machine.writeCtrl
  split
  · exact h.softReset
  · split
    · exact (h.setIrqEn _).start
    · exact h.setIrqEn _

/-- A limb written through the register window stays inside the width (rule R52). -/
theorem State.Inv.setLimb_lt {s : State} (h : s.Inv) {a k : Nat} {r : Reg}
    (hw : windowItem s.params a = .regLimb r k) (v : Word) :
    setLimb (s.reg r) k v < 2 ^ s.params.width := by
  have hlimbs : 0 < s.params.nlimbs := by
    have := (legal_bounds h.params_legal).1
    omega
  exact Machine.setLimb_lt (h.regs_fit r) (windowItem_reg_range hlimbs hw) v

/-- A host write keeps the invariant: it reaches IMEM and the registers inside their windows only. -/
theorem State.Inv.memWrite {s : State} (h : s.Inv) (a n : Nat) (v : Word) :
    (memWrite a n v s).Inv := by
  unfold Machine.memWrite
  split
  · cases hw : windowItem s.params a with
    | ctrl => exact h.writeCtrl v
    | status => exact h.clearStatus v
    | pc => exact h.whileIdle _ (h.jumpTo _)
    | imemWord i => exact h.whileIdle _ (h.setImemWord (windowItem_imem_range hw).1 v)
    | regLimb r k =>
      exact h.whileIdle (fun s => s.setReg r (setLimb (s.reg r) k v)) (h.setReg r (h.setLimb_lt hw v))
    | id | cfg | cause | fpc | finsn | unmapped => exact h
  · exact h.setWerr true

theorem State.Inv.answerRead {s : State} (h : s.Inv) (a n : Nat) :
    (answerRead (memRead a n s)).Inv := by
  rw [answerRead_frame]
  exact { h with }

/-- Every event keeps the invariant. -/
theorem State.Inv.stepEffect {s t : State} (h : s.Inv) (he : StepEffect s t) : t.Inv := by
  cases he with
  | idle rest => exact h.setEnv rest
  | runs rest _ _ hb hr => exact (h.setEnv rest).seqEffect hb hr
  | read a n rest => exact (h.setEnv rest).answerRead a n
  | write a n v rest => exact (h.setEnv rest).memWrite a n v
  | reset rest => exact (h.setEnv rest).hardReset

/-! ## What an instruction reads -/

/-- The updates an instruction can make, each the same function of every state (rules R12, R24, R158,
R163). -/
inductive Update (i : Instr) : (State → State) → Prop where
  | fault (c : Cause) : Update i (takeFault c (encode i))
  | retire (rd : Reg) (v : Nat) : Update i (retire rd v)
  | transfer (a : BitVec 16) : Update i (jumpTo a)
  | halt : Update i haltRun

/-- An update writes no register, or one and the same value into the same register of every state. -/
theorem Update.reg {i : Instr} {u : State → State} (h : Update i u) :
    (∀ s q, (u s).reg q = s.reg q) ∨
      ∃ rd w, ∀ s q, (u s).reg q = if q = rd then w else s.reg q := by
  cases h with
  | fault | transfer | halt => exact .inl fun _ _ => rfl
  | retire rd v => exact .inr ⟨rd, v, fun s q => reg_retire rd q v s⟩

/-- No update takes anything but registers from the registers. -/
theorem Update.setReg {i : Instr} {u : State → State} (h : Update i u) (r : Reg) (v : Nat)
    (s : State) : { u (s.setReg r v) with x := (u s).x } = u s := by
  cases h <;> rfl

/-- `o` on `s` and `o'` on `s'` are answered by one update. -/
def SameUpdate (i : Instr) (s s' : State) (o o' : StepResult) : Prop :=
  ∃ u, Update i u ∧ o = .next (u s) ∧ o' = .next (u s')

section
variable {i : Instr} {s s' : State}

theorem SameUpdate.raise (c : Cause) : SameUpdate i s s' (raiseFault c i s) (raiseFault c i s') :=
  ⟨_, .fault c, rfl, rfl⟩

theorem SameUpdate.retire (rd : Reg) (v : Nat) :
    SameUpdate i s s' (.next (retire rd v s)) (.next (retire rd v s')) :=
  ⟨_, .retire rd v, rfl, rfl⟩

theorem SameUpdate.ite {c : Prop} [Decidable c] {a a' b b' : StepResult}
    (ha : SameUpdate i s s' a a') (hb : SameUpdate i s s' b b') :
    SameUpdate i s s' (if c then a else b) (if c then a' else b') := by
  split
  · exact ha
  · exact hb

theorem SameUpdate.retireIfFits (hparams : s'.params = s.params) (rd : Reg) (v : Nat) :
    SameUpdate i s s' (retireIfFits i rd v s) (retireIfFits i rd v s') := by
  unfold Machine.retireIfFits
  rw [hparams]
  exact .ite (.retire rd v) (.raise .overflow)

theorem SameUpdate.branchIf (hpc : s'.pc = s.pc) (c : Bool) (off : Int) :
    SameUpdate i s s' (.next (branchIf c off s)) (.next (branchIf c off s')) := by
  rw [branchIf_eq, branchIf_eq, hpc]
  exact ⟨_, .transfer _, rfl, rfl⟩

/-- An instruction reads the parameters, pc and the registers its source fields name (rule R22): two
states with the same of these it updates alike. -/
theorem exec_sameUpdate (hparams : s'.params = s.params) (hpc : s'.pc = s.pc)
    (hr : ∀ r ∈ i.sources, s'.reg r = s.reg r) : SameUpdate i s s' (exec i s) (exec i s') := by
  cases i with
  | nop => exact ⟨jumpTo (s.pc + 1), .transfer _, rfl, by rw [← hpc]; rfl⟩
  | halt => exact ⟨_, .halt, rfl, rfl⟩
  | jmp tgt => exact ⟨_, .transfer _, rfl, rfl⟩
  | beq | bne | bltu | bgeu =>
    simp only [Instr.sources, List.forall_mem_cons] at hr
    simp only [exec, execBeq, execBne, execBltu, execBgeu, hr]
    exact .branchIf hpc _ _
  | ldi rd imm => exact .retire rd _
  | mov rd ra =>
    simp only [Instr.sources, List.forall_mem_cons] at hr
    simp only [exec, execMov, hr]
    exact .retire rd _
  | sqr rd | inc rd | mul rd =>
    simp only [Instr.sources, List.forall_mem_cons] at hr
    simp only [exec, execSqr, execInc, execMul, hr]
    exact .retireIfFits hparams rd _
  | dec rd | modpow rd | modmul rd =>
    simp only [Instr.sources, List.forall_mem_cons] at hr
    simp only [exec, execDec, execModpow, execModmul, hr]
    exact .ite (.raise _) (.retire rd _)
  | lcm rd =>
    simp only [Instr.sources, List.forall_mem_cons] at hr
    simp only [exec, execLcm, hr]
    exact .ite (.raise _) (.retireIfFits hparams rd _)
  | lfn rd | modinv rd | montmul rd =>
    simp only [Instr.sources, List.forall_mem_cons] at hr
    simp only [exec, execLfn, execModinv, execMontmul, hr, hparams]
    exact .ite (.raise _) (.ite (.raise _) (.retire rd _))

end

/-! ## pc after an instruction -/

/-- A fault entry leaves pc (rules R24, R163). -/
theorem effect_fault_pc {i : Instr} {s t : State} (h : Effect i s t) (hs : s.fault = false)
    (ht : t.fault = true) : t.pc = s.pc := by
  cases h with
  | faults => rfl
  | retires | transfers | halts => exact absurd (hs.symm.trans ht) (by decide)

/-- An instruction that writes a register and does not fault goes to the next index (rule R24). -/
theorem effect_dest_pc {i : Instr} {s t : State} (h : Effect i s t) (ht : t.fault = false)
    (hd : i.dest ≠ none) : t.pc = s.pc + 1 := by
  cases h with
  | faults => cases ht
  | retires => rfl
  | transfers _ hn => exact absurd hn hd
  | halts hi => exact absurd (hi ▸ rfl) hd

/-! ## The way out of idle -/

/-- A START that begins a run is an accepted one (rule R177). -/
theorem start_starts {s : State} (ht : (start s).busy = true) (hb : s.busy = false) :
    s.fault = false ∧ start s = { s with done := false, busy := true } := by
  have hf : s.fault = false := by
    refine Bool.eq_false_iff.2 fun hf => ?_
    simp [start_refused (.inr hf), hb] at ht
  exact ⟨hf, start_accepted hb hf⟩

/-- On an idle block only START, of the bits of CTRL, sets BUSY (rule R177). -/
theorem writeCtrl_starts {s : State} {v : Word} (ht : (writeCtrl v s).busy = true)
    (hb : s.busy = false) :
    v.getLsbD 0 = true ∧ v.getLsbD 1 = false ∧ s.fault = false ∧
      writeCtrl v s = { s with irqEn := v.getLsbD 2, done := false, busy := true } := by
  cases h1 : v.getLsbD 1 with
  | true => simp [writeCtrl_srst h1] at ht
  | false =>
    cases h0 : v.getLsbD 0 with
    | false => simp [writeCtrl_neither h1 h0, hb] at ht
    | true =>
      rw [writeCtrl_start h1 h0] at ht ⊢
      exact ⟨rfl, rfl, start_starts ht hb⟩

/-- No other window item sets BUSY. -/
theorem writeItem_idle {s : State} {w : WindowItem} (hb : s.busy = false) (hw : w ≠ .ctrl)
    (v : Word) : (writeItem v s w).busy = false := by
  cases w with
  | ctrl => exact absurd rfl hw
  | pc | imemWord | regLimb =>
    simp only [writeItem]
    rw [whileIdle_idle hb]
    exact hb
  | status | id | cfg | cause | fpc | finsn | unmapped => exact hb

/-- A host write that begins a run is a supported write of CTRL. -/
theorem memWrite_starts {s : State} {a n : Nat} {v : Word}
    (ht : (memWrite a n v s).busy = true) (hb : s.busy = false) : a = 0x008 ∧ n = 4 := by
  unfold memWrite at ht
  split at ht
  · next hsup =>
    refine ⟨?_, (of_decide_eq_true hsup).1⟩
    by_contra ha
    have hw : windowItem s.params a ≠ .ctrl := fun e => ha (windowItem_eq_ctrl.1 e)
    simp [writeItem_idle hb hw] at ht
  · simp [hb] at ht

/-! ## A blank IMEM -/

theorem decodeWord_zero : decodeWord 0 = .error .reservedOpcode := by decide

/-- A blank IMEM holds the zero word at every index (rule R25). -/
theorem fetch_blank {s : State} (h : s.imem = []) (hpc : s.pc.toNat < s.params.imemWords) :
    s.fetch = some 0 := by
  rw [State.fetch, if_pos hpc, State.imemWord, h]
  simp [Memory.readWord]

/-- A run that fetches the zero word faults with ILLEGAL_INSTRUCTION (rule R92). -/
theorem seqStep_zero {s : State} (h : s.fetch = some 0) :
    seqStep s = .next (takeFault .illegalInstruction 0 s) := by
  rw [seqStep, h]
  simp only [decodeWord_zero]

end Sys2Proof.Machine

namespace Sys2Proof.Proofs

open Sys2Proof Sys2Proof.Machine

/-- Settles O2: every event of the total order keeps the invariant. -/
theorem stepKeepsTheInvariant : Obligations.StepKeepsTheInvariant :=
  fun _ _ hinv h => hinv.stepEffect (step_effect h)

/-- Settles O36: the two states agree on all the instruction reads, so one update answers both, and an
update carries a register it does not write from the state it is given. -/
theorem instructionsReadOnlyTheirSources : Obligations.InstructionsReadOnlyTheirSources := by
  intro i r v s t hsrc h
  have hr : ∀ q ∈ i.sources, (s.setReg r v).reg q = s.reg q := fun q hq =>
    reg_setReg_other (ne_of_mem_of_not_mem hq hsrc) v s
  obtain ⟨u, hu, hs, hs'⟩ := exec_sameUpdate (setReg_params r v s) (setReg_pc r v s) hr
  rw [hs] at h
  cases h
  refine ⟨_, hs', hu.setReg r v s, ?_⟩
  rcases hu.reg with hkeep | ⟨rd, w, hwrite⟩
  · refine ⟨fun q hq => ?_, .inr ⟨?_, hkeep s r⟩⟩
    · rw [hkeep, hkeep, reg_setReg_other hq]
    · rw [hkeep, reg_setReg_same]
  · refine ⟨fun q hq => by rw [hwrite, hwrite, reg_setReg_other hq], ?_⟩
    rw [hwrite, hwrite]
    split
    · exact .inl rfl
    · exact .inr ⟨reg_setReg_same r v s, rfl⟩

/-- Settles O37, from the four effects; NOP and HALT, which have no destination, by their meaning. -/
theorem pcAdvancesUnlessTransferred : Obligations.PcAdvancesUnlessTransferred := by
  intro i s t hs h
  have he := effect_of_exec h
  refine ⟨effect_fault_pc he hs, ?_, fun ht hi => ?_⟩
  · rintro rfl
    cases h
    rfl
  · have hpc : t.pc = s.pc + 1 := by
      rcases hi with hd | rfl
      · exact effect_dest_pc he ht hd
      · cases h
        rfl
    rw [hpc]
    exact BitVec.toNat_add s.pc 1

/-- Settles O41: of the events only a host write can set BUSY, and of the writes only that of CTRL. -/
theorem idleBlockStaysIdleUntilStarted : Obligations.IdleBlockStaysIdleUntilStarted := by
  intro s hb
  refine ⟨fun he => (step_nil he).trans (seqTurn_idle hb),
    fun rest he => (step_cons he).trans (seqTurn_idle hb), fun t h ht => ?_⟩
  cases step_effect h with
  | idle => simp [hb] at ht
  | runs _ _ _ hrun => simp [hb] at hrun
  | read =>
    rw [answerRead_frame] at ht
    simp [hb] at ht
  | write a n v rest he =>
    obtain ⟨rfl, rfl⟩ := memWrite_starts ht hb
    rw [memWrite_ctrl] at ht ⊢
    obtain ⟨h0, h1, hf, heq⟩ := writeCtrl_starts ht hb
    exact ⟨v, rest, he, h0, h1, hf, heq⟩
  | reset => cases ht

/-- Settles O1: the reset state is a cleared one with an empty IMEM. -/
theorem resetMeetsTheInvariant : Obligations.ResetMeetsTheInvariant :=
  ⟨fun _ hp => .resetOf hp, .resetOf (by decide)⟩

/-- Settles O6: the START is accepted, and the run fetches the zero word at index 0. -/
theorem firstRunOfBlankImemIsIllegal : Obligations.FirstRunOfBlankImemIsIllegal := by
  intro p hp
  have hstart : step { State.resetOf p with env := [.access (.write (p.base + 0x008) 4 1)] } =
      .next { State.resetOf p with busy := true } := by
    rw [step_hostWrite rfl (show 0x008 < 0x8000 by decide), memWrite_ctrl,
      writeCtrl_start rfl rfl, start_accepted rfl rfl]
    rfl
  obtain ⟨-, -, himem, -⟩ := legal_bounds hp
  have hfetch : { State.resetOf p with busy := true }.fetch = some 0 := fetch_blank rfl himem
  have hfault : step { State.resetOf p with busy := true } =
      .next { State.resetOf p with cause := 1, fault := true } :=
    ((step_nil rfl).trans (seqTurn_busy rfl)).trans (seqStep_zero hfetch)
  rw [run_next hstart, run_next hfault, run_zero]

end Sys2Proof.Proofs
end

section
/-! The host window item by item: the word a read returns, the state a write leaves and what the two
leave alone; and the proofs of the statements about the host interface that rest on them. -/

namespace Sys2Proof.Machine

/-! ## The words of the control and status registers -/

/-- IMEM_WORDS above NLIMBS (rule R28); a legal NLIMBS does not reach bit 16. -/
theorem cfgWord_eq {p : Params} (hp : p.legal = true) :
    Params.cfgWord p = BitVec.ofNat 32 (p.imemWords * 2 ^ 16 + p.nlimbs) := by
  obtain ⟨-, hn, -, hi, -⟩ := legal_bounds hp
  apply BitVec.eq_of_toNat_eq
  rw [Params.cfgWord, BitVec.toNat_append, BitVec.toNat_ofNat, BitVec.toNat_ofNat,
    BitVec.toNat_ofNat, ← Nat.shiftLeft_add_eq_or_of_lt (Nat.mod_lt _ (by decide)),
    Nat.shiftLeft_eq]
  omega

/-- IRQ_EN is bit 2 (rule R30). -/
theorem ctrlWord_eq (s : State) : s.ctrlWord = BitVec.ofNat 32 (s.irqEn.toNat * 2 ^ 2) := by
  rw [State.ctrlWord]
  cases s.irqEn <;> decide

/-- WERR, FAULT, DONE and BUSY are bits 3 to 0 (rule R29). -/
theorem statusWord_eq (s : State) : s.statusWord = BitVec.ofNat 32 (s.werr.toNat * 2 ^ 3 +
    s.fault.toNat * 2 ^ 2 + s.done.toNat * 2 + s.busy.toNat) := by
  rw [State.statusWord]
  generalize s.werr = w, s.fault = f, s.done = d, s.busy = b
  revert w f d b
  decide

/-- A limb as a quotient and a remainder (rule R52). -/
theorem limb_eq (v k : Nat) : limb v k = BitVec.ofNat 32 (v / 2 ^ (32 * k) % 2 ^ 32) := by
  apply BitVec.eq_of_toNat_eq
  rw [limb_toNat, BitVec.toNat_ofNat, Nat.mod_mod]

/-! ## Replacing a limb, a word, a register -/

/-- Replacing a limb takes the old limb out and puts the word in (rule R69). -/
theorem setLimb_eq (v k : Nat) (w : Word) : setLimb v k w =
    v - v / 2 ^ (32 * k) % 2 ^ 32 * 2 ^ (32 * k) + w.toNat * 2 ^ (32 * k) := by
  have hlow := mod_pow_succ_limb v k
  have hall := Nat.mod_add_div' v (2 ^ (32 * (k + 1)))
  rw [limb_toNat] at hlow
  rw [setLimb, Nat.shiftRight_eq_div_pow]
  omega

/-- Byte lane j is bits 8j+7:8j (rule R53). -/
theorem byteLane_toNat (v : Word) (j : Nat) :
    (byteLane v j).toNat = v.toNat / 2 ^ (8 * j) % 2 ^ 8 := by
  rw [byteLane, BitVec.extractLsb'_toNat, Nat.shiftRight_eq_div_pow]

theorem setReg_setReg (r : Reg) (v w : Nat) (s : State) :
    (s.setReg r v).setReg r w = s.setReg r w := by
  simp [State.setReg]

/-- `IMEM[i]` reads as it was written (rule R54). -/
theorem imemWord_setImemWord_same {s : State} (h : s.imem.wf = true) (i : Nat) (v : Word) :
    (State.setImemWord i v s).imemWord i = v := Memory.readWord_writeWord_same h _ v

/-! ## What an access does to the item it names -/

/-- An access of another size or alignment is rejected (rule R55). -/
theorem supported_eq_false {a n : Nat} (h : n ≠ 4 ∨ a % 4 ≠ 0) : supported a n = false :=
  decide_eq_false (by omega)

theorem memRead_rejected {a n : Nat} (h : n ≠ 4 ∨ a % 4 ≠ 0) (s : State) :
    memRead a n s = (0, { s with werr := true }) := by
  simp [memRead, supported_eq_false h]

theorem memWrite_rejected {a n : Nat} (h : n ≠ 4 ∨ a % 4 ≠ 0) (v : Word) (s : State) :
    memWrite a n v s = { s with werr := true } := by
  simp [memWrite, supported_eq_false h]

/-- A read of IMEM[i] (rule R54). -/
theorem memRead_imemWord {s : State} {i : Nat} (h : i < s.params.imemWords) :
    memRead (0x2000 + 4 * i) 4 s = (s.imemWord i, s) := by
  rw [memRead_supported (by omega), windowItem_imem h, readItem]

/-- A read of limb k of register r (rule R52). -/
theorem memRead_regLimb {s : State} (hp : s.params.legal = true) (r : Reg) {k : Nat}
    (hk : k < s.params.nlimbs) :
    memRead (0x4000 + 4 * (r.val * s.params.nlimbs + k)) 4 s = (limb (s.reg r) k, s) := by
  rw [memRead_supported (by omega), windowItem_reg hp r hk, readItem]

theorem memWrite_status (v : Word) (s : State) : memWrite 0x00C 4 v s = clearStatus v s := rfl

theorem memWrite_pc (v : Word) (s : State) :
    memWrite 0x010 4 v s = whileIdle (jumpTo (v.extractLsb' 0 16)) s := rfl

/-- A write of IMEM[i] (rule R54). -/
theorem memWrite_imemWord {s : State} {i : Nat} (h : i < s.params.imemWords) (v : Word) :
    memWrite (0x2000 + 4 * i) 4 v s = whileIdle (State.setImemWord i v) s := by
  rw [memWrite_supported (by omega), windowItem_imem h, writeItem]

/-- A write of limb k of register r (rule R52). -/
theorem memWrite_regLimb {s : State} (hp : s.params.legal = true) (r : Reg) {k : Nat}
    (hk : k < s.params.nlimbs) (v : Word) :
    memWrite (0x4000 + 4 * (r.val * s.params.nlimbs + k)) 4 v s =
      whileIdle (fun s => s.setReg r (setLimb (s.reg r) k v)) s := by
  rw [memWrite_supported (by omega), windowItem_reg hp r hk, writeItem]

/-- A write at an aligned offset of the IMEM window. -/
theorem memWrite_in_imem {a : Nat} {s : State} (h4 : a % 4 = 0)
    (h : 0x2000 ≤ a ∧ a < 0x2000 + 4 * s.params.imemWords) (v : Word) :
    memWrite a 4 v s = whileIdle (State.setImemWord ((a - 0x2000) / 4) v) s := by
  rw [memWrite_supported h4, windowItem_in_imem h, writeItem]

/-- A write at an aligned offset of the register window. -/
theorem memWrite_in_regs {a : Nat} {s : State} (hp : s.params.legal = true) (h4 : a % 4 = 0)
    (h : 0x4000 ≤ a ∧ a < 0x4000 + 64 * s.params.nlimbs) (v : Word) :
    memWrite a 4 v s = whileIdle (fun t =>
      t.setReg (Fin.ofNat 16 ((a - 0x4000) / 4 / s.params.nlimbs))
        (setLimb (t.reg (Fin.ofNat 16 ((a - 0x4000) / 4 / s.params.nlimbs)))
          ((a - 0x4000) / 4 % s.params.nlimbs) v)) s := by
  rw [memWrite_supported h4, windowItem_in_regs hp h, writeItem]

/-- A write of any other offset has no effect (rules R56, R69). -/
theorem memWrite_ignored {a : Nat} {s : State} (h4 : a % 4 = 0) (hctrl : a ≠ 0x008)
    (hstatus : a ≠ 0x00C) (hpc : a ≠ 0x010)
    (himem : ¬ (0x2000 ≤ a ∧ a < 0x2000 + 4 * s.params.imemWords))
    (hregs : ¬ (0x4000 ≤ a ∧ a < 0x4000 + 64 * s.params.nlimbs)) (v : Word) :
    memWrite a 4 v s = s := by
  rw [memWrite_supported h4]
  by_cases hhigh : 0x20 ≤ a
  · rw [windowItem_high hhigh, Config.imemOffset, Config.regOffset, if_neg himem, if_neg hregs,
      writeItem]
  · obtain rfl | rfl | rfl | rfl | rfl :
        a = 0x000 ∨ a = 0x004 ∨ a = 0x014 ∨ a = 0x018 ∨ a = 0x01C := by omega
    all_goals rfl

/-! ## What a write leaves alone -/

@[simp] theorem start_x (s : State) : (start s).x = s.x := by
  unfold start
  split <;> rfl

@[simp] theorem start_imem (s : State) : (start s).imem = s.imem := by
  unfold start
  split <;> rfl

/-- No write of CTRL changes IMEM, a soft reset included (rule R191). -/
theorem writeCtrl_imem (v : Word) (s : State) : (writeCtrl v s).imem = s.imem := by
  unfold writeCtrl
  split
  · simp
  · split <;> simp

/-- A write of CTRL without SRST changes no register (rule R30). -/
theorem writeCtrl_x {v : Word} (h1 : v.getLsbD 1 = false) (s : State) :
    (writeCtrl v s).x = s.x := by
  cases h0 : v.getLsbD 0 with
  | false => rw [writeCtrl_neither h1 h0]
  | true => rw [writeCtrl_start h1 h0, start_x]

/-- During a run no write reaches IMEM (rules R58, R65). -/
theorem writeItem_busy_imem {s : State} (hb : s.busy = true) (v : Word) (w : WindowItem) :
    (writeItem v s w).imem = s.imem := by
  cases w with
  | ctrl => exact writeCtrl_imem v s
  | pc | imemWord | regLimb => rw [writeItem, whileIdle_busy hb]
  | status | id | cfg | cause | fpc | finsn | unmapped => rfl

/-- During a run no write but one of CTRL reaches a register (rule R58). -/
theorem writeItem_busy_x {s : State} (hb : s.busy = true) (v : Word) {w : WindowItem}
    (hw : w ≠ .ctrl) : (writeItem v s w).x = s.x := by
  cases w with
  | ctrl => exact absurd rfl hw
  | pc | imemWord | regLimb => rw [writeItem, whileIdle_busy hb]
  | status | id | cfg | cause | fpc | finsn | unmapped => rfl

theorem memWrite_busy_imem {s : State} (hb : s.busy = true) (a n : Nat) (v : Word) :
    (memWrite a n v s).imem = s.imem := by
  unfold memWrite
  split
  · exact writeItem_busy_imem hb v _
  · rfl

/-- During a run a write leaves the registers alone unless it is a soft reset (rules R58, R191). -/
theorem memWrite_busy_x {s : State} (hb : s.busy = true) (a n : Nat) (v : Word) :
    (memWrite a n v s).x = s.x ∨ (a = 0x008 ∧ n = 4 ∧ v.getLsbD 1 = true) := by
  by_cases hs : n ≠ 4 ∨ a % 4 ≠ 0
  · rw [memWrite_rejected hs]
    exact .inl rfl
  obtain ⟨rfl, h4⟩ : n = 4 ∧ a % 4 = 0 := by omega
  by_cases ha : a = 0x008
  · subst ha
    cases h1 : v.getLsbD 1 with
    | false => exact .inl (writeCtrl_x h1 s)
    | true => exact .inr ⟨rfl, rfl, rfl⟩
  · rw [memWrite_supported h4]
    exact .inl (writeItem_busy_x hb v (mt windowItem_eq_ctrl.1 ha))

/-! ## Writing twice -/

/-- A write gated by BUSY is idempotent when the write itself is and keeps BUSY. -/
theorem whileIdle_whileIdle {f : State → State} {s : State} (hbusy : (f s).busy = s.busy)
    (hf : f (f s) = f s) : whileIdle f (whileIdle f s) = whileIdle f s := by
  cases hb : s.busy with
  | true => rw [whileIdle_busy hb, whileIdle_busy (s := { s with werr := true }) hb]
  | false => rw [whileIdle_idle hb, whileIdle_idle (hbusy.trans hb), hf]

/-- Every write but a START or a soft reset leaves twice what it leaves once (rule R57). -/
theorem writeItem_writeItem {s : State} (hwf : s.imem.wf = true) {v : Word} {w : WindowItem}
    (hctrl : w = .ctrl → v.getLsbD 0 = false ∧ v.getLsbD 1 = false) :
    writeItem v (writeItem v s w) w = writeItem v s w := by
  cases w with
  | ctrl =>
    obtain ⟨h0, h1⟩ := hctrl rfl
    simp only [writeItem, writeCtrl_neither h1 h0]
  | status => simp [writeItem, clearStatus]
  | pc => exact whileIdle_whileIdle (f := jumpTo _) rfl rfl
  | imemWord i =>
    refine whileIdle_whileIdle (f := State.setImemWord i v) rfl ?_
    simp only [State.setImemWord, Memory.writeWord_idem hwf]
  | regLimb r k =>
    refine whileIdle_whileIdle (f := fun s => s.setReg r (setLimb (s.reg r) k v)) rfl ?_
    simp only [reg_setReg_same, setLimb_setLimb, setReg_setReg]
  | id | cfg | cause | fpc | finsn | unmapped => rfl

/-- Two supported writes of one offset are two writes of one item. -/
theorem memWrite_memWrite {a : Nat} (h4 : a % 4 = 0) (v : Word) (s : State) :
    memWrite a 4 v (memWrite a 4 v s) =
      writeItem v (writeItem v s (windowItem s.params a)) (windowItem s.params a) := by
  obtain ⟨hparams, -, -⟩ := memWrite_frame a 4 v s
  rw [memWrite_supported h4 v (memWrite a 4 v s), hparams, memWrite_supported h4]

/-! ## Steps that are not the sequencer's -/

/-- The sequencer's turn is no host access. -/
theorem SequencerNext.env_ne_access {s : State} {rest : List Event} (h : SequencerNext s rest)
    (a : HostAccess) (later : List Event) : s.env ≠ .access a :: later := by
  rcases h with ⟨h, -⟩ | h <;> simp [h]

end Sys2Proof.Machine

namespace Sys2Proof.Proofs

open Sys2Proof Sys2Proof.Machine

/-- Settles O44: a rejected read by its one rule; a supported one by the window map, whose branches are
those of the statement, and the word of each item. -/
theorem memReadReturnsTheItem : Obligations.MemReadReturnsTheItem := by
  intro a n s hp _
  by_cases hs : n ≠ 4 ∨ a % 4 ≠ 0
  · rw [memRead_rejected hs, if_pos hs]
  obtain ⟨rfl, h4⟩ : n = 4 ∧ a % 4 = 0 := by omega
  rw [memRead_supported h4, if_neg hs]
  simp only [windowItem, apply_ite (readItem s)]
  simp only [readItem, cfgWord_eq hp, ctrlWord_eq, statusWord_eq, BitVec.ofNat_toNat, limb_eq,
    Config.imemOffset, Config.regOffset, Config.idValue]

/-- Settles O45: one rule of the window for each branch of the statement. -/
theorem memWriteHasItsEffect : Obligations.MemWriteHasItsEffect := by
  intro a n v s hp _
  by_cases hs : n ≠ 4 ∨ a % 4 ≠ 0
  · rw [memWrite_rejected hs, if_pos hs]
  obtain ⟨rfl, h4⟩ : n = 4 ∧ a % 4 = 0 := by omega
  rw [if_neg hs]
  by_cases hctrl : a = 0x008
  · rw [if_pos hctrl, hctrl]
    rfl
  rw [if_neg hctrl]
  by_cases hstatus : a = 0x00C
  · rw [if_pos hstatus, hstatus, memWrite_status]
    simp [clearStatus, Bool.and_comm]
  rw [if_neg hstatus]
  by_cases hpc : a = 0x010
  · rw [if_pos hpc, hpc]
    rfl
  rw [if_neg hpc]
  by_cases himem : 0x2000 ≤ a ∧ a < 0x2000 + 4 * s.params.imemWords
  · have haddr : imemAddr ((a - 0x2000) / 4) = a := by
      rw [imemAddr, Config.imemOffset]
      omega
    rw [if_pos himem, memWrite_in_imem h4 himem, whileIdle, State.setImemWord, haddr]
  rw [if_neg himem]
  by_cases hregs : 0x4000 ≤ a ∧ a < 0x4000 + 64 * s.params.nlimbs
  · rw [if_pos hregs, memWrite_in_regs hp h4 hregs, whileIdle, State.setReg, setLimb_eq]
  · rw [if_neg hregs, memWrite_ignored h4 hctrl hstatus hpc himem hregs]

/-- Settles O46: the window map names the limb, and a register that fits the width is the sum of its
limbs. -/
theorem registerWindowHoldsTheLimbs : Obligations.RegisterWindowHoldsTheLimbs := by
  intro s hinv
  refine ⟨fun r k hk => by rw [memRead_regLimb hinv.params_legal r hk, limb_eq], fun r => ?_⟩
  calc s.reg r = s.reg r % 2 ^ (32 * s.params.nlimbs) := (Nat.mod_eq_of_lt (hinv.regs_fit r)).symm
    _ = _ := sum_limbs (s.reg r) s.params.nlimbs
    _ = _ := congrArg List.sum (List.map_congr_left fun k hk => by
      rw [memRead_regLimb hinv.params_legal r (List.mem_range.1 hk)])

/-- Settles O47: the write is one setReg of one replaced limb. -/
theorem registerWindowWriteReplacesOneLimb : Obligations.RegisterWindowWriteReplacesOneLimb := by
  intro s r k v hinv hb hk
  dsimp only
  rw [memWrite_regLimb hinv.params_legal r hk, whileIdle_idle hb]
  refine ⟨rfl, fun q j hj => ?_⟩
  have hread := memRead_regLimb (s := s.setReg r (setLimb (s.reg r) k v)) hinv.params_legal q hj
  rw [setReg_params] at hread
  rw [hread, memRead_regLimb hinv.params_legal q hj, reg_setReg]
  by_cases hq : q = r
  · simp [hq, limb_setLimb]
  · simp [hq]

/-- Settles O48: the read and the write of IMEM[i], and the laws of a word write. -/
theorem imemWindowReadsAndWritesWords : Obligations.ImemWindowReadsAndWritesWords := by
  intro s i v hinv hi
  dsimp only
  rw [memWrite_imemWord hi]
  refine ⟨memRead_imemWord hi, fun hb => whileIdle_busy hb _, fun hb => ?_⟩
  rw [whileIdle_idle hb]
  have hword := imemWord_setImemWord_same hinv.imem_wf i v
  refine ⟨rfl, hword, fun j hj => ?_, fun a ha => Memory.read_writeWord_other ha s.imem v,
    fun hpc => ?_⟩
  · rw [← byteLane_toNat, ← Memory.read_writeWord_lane hinv.imem_wf (0x2000 + 4 * i) v hj]
    rfl
  · rw [State.fetch, if_pos (hpc ▸ hi), hpc, hword]

/-- Settles O49: the three gated writes by BUSY, CTRL and STATUS by their own rules. -/
theorem runRejectsHostWrites : Obligations.RunRejectsHostWrites := by
  intro s a v hb hp h4
  refine ⟨?_, ?_, ?_, ?_⟩
  · rintro (rfl | himem | hregs)
    · rw [memWrite_pc, whileIdle_busy hb]
    · rw [memWrite_in_imem h4 himem, whileIdle_busy hb]
    · rw [memWrite_in_regs hp h4 hregs, whileIdle_busy hb]
  · rintro rfl h0 h1
    rw [memWrite_ctrl, writeCtrl_start h1 h0,
      start_refused (s := { s with irqEn := v.getLsbD 2 }) (.inl hb)]
  · rintro rfl h1
    rw [memWrite_ctrl, writeCtrl_srst h1]
  · rintro rfl
    rw [memWrite_status, clearStatus]

/-- Settles O52: no supported read changes the state, and of the offsets named only CTRL could start or
reset, which its bits exclude. -/
theorem readsAreFreeOfSideEffects : Obligations.ReadsAreFreeOfSideEffects := by
  intro s a v hinv h4
  refine ⟨by rw [memRead_supported h4], fun ha => ?_⟩
  rw [memWrite_memWrite h4, memWrite_supported h4]
  refine writeItem_writeItem hinv.imem_wf fun hw => ?_
  obtain rfl := windowItem_eq_ctrl.1 hw
  simpa using ha

/-- Settles O53, from what each event can do to a running block. -/
theorem programAndOperandsAreFixedDuringARun : Obligations.ProgramAndOperandsAreFixedDuringARun := by
  intro s t hb h
  cases step_effect h with
  | idle rest he => exact ⟨fun _ => rfl, fun a later e => absurd e (he.env_ne_access a later)⟩
  | runs rest _ he _ hr =>
    obtain ⟨-, himem, -⟩ := seqEffect_frame hr
    exact ⟨fun _ => himem, fun a later e => absurd e (he.env_ne_access a later)⟩
  | read a n rest he =>
    rw [answerRead_frame]
    exact ⟨fun _ => rfl, fun _ _ _ => .inl rfl⟩
  | write a n v rest he =>
    refine ⟨fun _ => memWrite_busy_imem (s := { s with env := rest }) hb a n v,
      fun access later e => ?_⟩
    refine (memWrite_busy_x (s := { s with env := rest }) hb a n v).imp_right ?_
    rintro ⟨rfl, rfl, h1⟩
    rw [he] at e
    cases e
    exact ⟨v, rfl, h1⟩
  | reset rest he => exact ⟨fun hno => absurd he (hno rest), fun a later e => by simp [he] at e⟩

/-- Settles O54, from what each event can do to an idle block. -/
theorem resultsStandUntilTheHostWrites : Obligations.ResultsStandUntilTheHostWrites := by
  intro s t hb h
  cases step_effect h with
  | idle => exact .inr (.inr ⟨rfl, rfl⟩)
  | runs _ _ _ hrun => simp [hb] at hrun
  | read =>
    rw [answerRead_frame]
    exact .inr (.inr ⟨rfl, rfl⟩)
  | write a n v rest he => exact .inl ⟨_, n, v, rest, he⟩
  | reset rest he => exact .inr (.inl ⟨rest, he⟩)

/-- Settles O43, by the step of a host read and of a host write in the window; no read touches the
replies before its own is added. -/
theorem hostEventIsTheWindowAccess : Obligations.HostEventIsTheWindowAccess := by
  intro s a n v rest ha
  refine ⟨fun he => ⟨_, step_hostRead he ha, ?_⟩, fun he => step_hostWrite he ha⟩
  rcases memRead_state a n { s with env := rest } with h | h <;> rw [answerRead, h]

end Sys2Proof.Proofs
end

section
/-! Encoding: a row of the opcode map as an opcode and must-be-zero bits, the word of each format
from its fields, what the sequencer makes of the word at pc, the assembler line by line; and the
proofs of the statements about them. -/

namespace Sys2Proof

/-! ## A row as an opcode and must-be-zero bits -/

/-- The must-be-zero bits of a row: what its mask compares below the opcode (rules R86, R91). -/
def Row.mustBeZero (r : Row) : Word := r.mask &&& 0x03FFFFFF

/-- Every mask covers the opcode, and every pattern is 0 below it (rule R86). -/
theorem row_shape {r : Row} (hr : r ∈ opcodeMap) :
    0xFC000000 &&& r.mask = 0xFC000000 ∧ r.pattern &&& 0x03FFFFFF = 0 := by
  have hall : ∀ r ∈ opcodeMap,
      0xFC000000 &&& r.mask = 0xFC000000 ∧ r.pattern &&& 0x03FFFFFF = 0 := by decide
  exact hall r hr

/-- Words are equal when their opcodes and their bits below the opcode are. -/
theorem eq_of_opcode_of_low {v w : Word} (hop : opcodeOf v = opcodeOf w)
    (hlow : v &&& 0x03FFFFFF = w &&& 0x03FFFFFF) : v = w := by
  have hlow' : v.toNat % 2 ^ 26 = w.toNat % 2 ^ 26 := by
    have h := congrArg BitVec.toNat hlow
    rwa [BitVec.toNat_and, BitVec.toNat_and, show (0x03FFFFFF : Word).toNat = 2 ^ 26 - 1 from rfl,
      Nat.and_two_pow_sub_one_eq_mod, Nat.and_two_pow_sub_one_eq_mod] at h
  simp only [opcodeOf, field_eq] at hop
  refine BitVec.eq_of_toNat_eq ?_
  omega

/-- A row matches a word that has its opcode and zeros in its must-be-zero bits (rules R86, R91). -/
theorem row_matches_iff {r : Row} (hr : r ∈ opcodeMap) (w : Word) :
    r.matches w = true ↔ opcodeOf w = opcodeOf r.pattern ∧ w &&& r.mustBeZero = 0 := by
  obtain ⟨hhigh, hlow⟩ := row_shape hr
  constructor
  · intro hm
    refine ⟨row_opcode hr hm, ?_⟩
    rw [Row.matches, beq_iff_eq] at hm
    rw [Row.mustBeZero, ← BitVec.and_assoc, hm, hlow]
  · rintro ⟨hop, hz⟩
    rw [Row.matches, beq_iff_eq]
    refine eq_of_opcode_of_low (Eq.trans ?_ hop) ?_
    · refine (field_eq_iff (by omega) _ _).2 fun i h1 h2 => ?_
      have hi := congrArg (fun v => v.getLsbD i) hhigh
      have hbit : ∀ j ≤ 31, 26 ≤ j → (0xFC000000 : Word).getLsbD j = true := by decide
      simp only [BitVec.getLsbD_and, hbit i h2 h1, Bool.true_and] at hi
      rw [BitVec.getLsbD_and, hi, Bool.and_true]
    · rw [hlow, BitVec.and_assoc, ← hz, Row.mustBeZero]

/-- A word with a row's opcode and a must-be-zero bit set is refused for that bit (rule R91). -/
theorem decodeWord_mustBeZero {r : Row} (hr : r ∈ opcodeMap) {w : Word}
    (hop : opcodeOf w = opcodeOf r.pattern) (hz : w &&& r.mustBeZero ≠ 0) :
    decodeWord w = .error .mustBeZero := by
  cases hd : decodeWord w with
  | ok i =>
    obtain ⟨r', hr', hm, -⟩ := decodeWord_ok hd
    obtain rfl := rows_distinct hr hr' (hop.symm.trans (row_opcode hr' hm))
    exact absurd ((row_matches_iff hr w).1 hm).2 hz
  | error e => rw [(decodeWord_error hd).2.2 ⟨r, hr, hop.symm⟩]

/-- A row is known by its opcode (rule R93). -/
theorem index_of_opcode {j k : Nat} (hj : j < opcodeMap.length) (hk : k < opcodeMap.length)
    (h : opcodeOf opcodeMap[j].pattern = opcodeOf opcodeMap[k].pattern) : j = k := by
  have hn : (opcodeMap.map fun r => opcodeOf r.pattern).Nodup := by decide
  refine (hn.getElem_inj_iff (hi := by simpa using hj) (hj := by simpa using hk)).1 ?_
  simpa only [List.getElem_map] using h

/-! ## The word of each format from its fields -/

/-- The fields that the bits of a mask make up are 0 in a word that has zeros there. -/
theorem field_eq_zero (ranges : List (Nat × Nat)) {mask : Word}
    (hr : ranges.all (fun r => r.2 ≤ r.1 && r.1 < 32) = true)
    (hm : coveredBy ranges mask = true) {w : Word} (h : w &&& mask = 0) :
    ∀ r ∈ ranges, field w r.1 r.2 = 0 := by
  intro r hmem
  rw [(and_mask_eq_iff ranges hr hm BitVec.zero_and w).1 h r hmem]
  simp [field]

theorem fitsUnsigned16_zext16 (w : Word) : fitsUnsigned16 (zext16 w) = true := by
  rw [fitsUnsigned16, decide_eq_true_eq, zext16_eq]
  omega

theorem fitsSigned16_sext16 (w : Word) : fitsSigned16 (sext16 w) = true := by
  rw [fitsSigned16, decide_eq_true_eq, sext16_eq]
  split <;> omega

theorem bits16_zext16 (w : Word) : bits16 (zext16 w) = w.toNat % 65536 := by
  rw [bits16, zext16_eq, Nat.mod_mod]

theorem offBits_sext16 (w : Word) : offBits (sext16 w) = w.toNat % 65536 := by
  rw [offBits, sext16_eq]
  split <;> omega

/-- A register field is the field of its four bits. -/
theorem field_eq_regField (w : Word) (lo : Nat) : field w (lo + 3) lo = regField w lo := by
  simp [regField_val, field_eq]

/-- The word of format R from its fields; rb and rc are register fields or must-be-zero bits. -/
theorem formatR_of_fields {op rb rc : Nat} {w : Word} (hop : opcodeOf w = op)
    (hrb : field w 17 14 = rb) (hrc : field w 13 10 = rc) (hz : field w 9 0 = 0) :
    formatR op (regField w 22) (regField w 18) rb rc = w := by
  simp only [opcodeOf, field_eq] at hop hrb hrc hz
  refine BitVec.eq_of_toNat_eq ?_
  rw [formatR_toNat (by omega) (regField w 22).isLt (regField w 18).isLt (by omega) (by omega),
    regField_val, regField_val]
  omega

section
variable {op : Nat} {w : Word} (hop : opcodeOf w = op)
include hop

theorem formatN_of_mustBeZero (hz : w &&& 0x03FFFFFF = 0) : formatN op = w := by
  have hlow := field_eq_zero [(25, 0)] (by decide) (by decide) hz
  simp only [List.forall_mem_singleton, opcodeOf, field_eq] at hop hlow
  refine BitVec.eq_of_toNat_eq ?_
  rw [formatN_toNat (by omega)]
  omega

theorem formatJ_of_mustBeZero (hz : w &&& 0x03FF0000 = 0) : formatJ op (bits16 (zext16 w)) = w := by
  have hlow := field_eq_zero [(25, 16)] (by decide) (by decide) hz
  simp only [List.forall_mem_singleton, opcodeOf, field_eq] at hop hlow
  refine BitVec.eq_of_toNat_eq ?_
  rw [formatJ_toNat (by omega) (bits16_lt _), bits16_zext16]
  omega

theorem formatB_of_mustBeZero (hz : w &&& 0x00030000 = 0) :
    formatB op (regField w 22) (regField w 18) (offBits (sext16 w)) = w := by
  have hlow := field_eq_zero [(17, 16)] (by decide) (by decide) hz
  simp only [List.forall_mem_singleton, opcodeOf, field_eq] at hop hlow
  refine BitVec.eq_of_toNat_eq ?_
  rw [formatB_toNat (by omega) (regField w 22).isLt (regField w 18).isLt (offBits_lt _),
    offBits_sext16, regField_val, regField_val]
  omega

theorem formatI_of_mustBeZero (hz : w &&& 0x003F0000 = 0) :
    formatI op (regField w 22) (bits16 (zext16 w)) = w := by
  have hlow := field_eq_zero [(21, 16)] (by decide) (by decide) hz
  simp only [List.forall_mem_singleton, opcodeOf, field_eq] at hop hlow
  refine BitVec.eq_of_toNat_eq ?_
  rw [formatI_toNat (by omega) (regField w 22).isLt (bits16_lt _), bits16_zext16, regField_val]
  omega

theorem formatR_two_of_mustBeZero (hz : w &&& 0x0003FFFF = 0) :
    formatR op (regField w 22) (regField w 18) 0 0 = w := by
  have hlow := field_eq_zero [(17, 14), (13, 10), (9, 0)] (by decide) (by decide) hz
  simp only [List.forall_mem_cons] at hlow
  obtain ⟨hrb, hrc, hlow, -⟩ := hlow
  exact formatR_of_fields hop hrb hrc hlow

theorem formatR_three_of_mustBeZero (hz : w &&& 0x00003FFF = 0) :
    formatR op (regField w 22) (regField w 18) (regField w 14) 0 = w := by
  have hlow := field_eq_zero [(13, 10), (9, 0)] (by decide) (by decide) hz
  simp only [List.forall_mem_cons] at hlow
  obtain ⟨hrc, hlow, -⟩ := hlow
  exact formatR_of_fields hop (field_eq_regField w 14) hrc hlow

/-- MODINV's shape: three registers and no rb. -/
theorem formatR_inverse_of_mustBeZero (hz : w &&& 0x0003C3FF = 0) :
    formatR op (regField w 22) (regField w 18) 0 (regField w 10) = w := by
  have hlow := field_eq_zero [(17, 14), (9, 0)] (by decide) (by decide) hz
  simp only [List.forall_mem_cons] at hlow
  obtain ⟨hrb, hlow, -⟩ := hlow
  exact formatR_of_fields hop hrb (field_eq_regField w 10) hlow

theorem formatR_four_of_mustBeZero (hz : w &&& 0x000003FF = 0) :
    formatR op (regField w 22) (regField w 18) (regField w 14) (regField w 10) = w := by
  have hlow := field_eq_zero [(9, 0)] (by decide) (by decide) hz
  simp only [List.forall_mem_singleton] at hlow
  exact formatR_of_fields hop (field_eq_regField w 14) (field_eq_regField w 10) hlow

end

/-! ## Encoding and decoding -/

/-- The instruction a row builds from a word it matches is well formed and has that word: each row
has the must-be-zero bits of its instruction's format. -/
theorem row_encode_build {r : Row} (hr : r ∈ opcodeMap) {w : Word} (hm : r.matches w = true) :
    (r.build w).wellFormed = true ∧ encode (r.build w) = w := by
  obtain ⟨hop, hz⟩ := (row_matches_iff hr w).1 hm
  simp only [opcodeMap, controlRows, arithRows, modularRows, List.cons_append, List.nil_append,
    List.mem_cons, List.not_mem_nil, or_false] at hr
  obtain nop | halt | jmp | beq | bne | bltu | bgeu | ldi | mov | sqr | inc | dec | lcm | lfn |
    mul | modpow | modinv | modmul | montmul := hr
  · subst nop; exact ⟨rfl, formatN_of_mustBeZero hop hz⟩
  · subst halt; exact ⟨rfl, formatN_of_mustBeZero hop hz⟩
  · subst jmp; exact ⟨fitsUnsigned16_zext16 w, formatJ_of_mustBeZero hop hz⟩
  · subst beq; exact ⟨fitsSigned16_sext16 w, formatB_of_mustBeZero hop hz⟩
  · subst bne; exact ⟨fitsSigned16_sext16 w, formatB_of_mustBeZero hop hz⟩
  · subst bltu; exact ⟨fitsSigned16_sext16 w, formatB_of_mustBeZero hop hz⟩
  · subst bgeu; exact ⟨fitsSigned16_sext16 w, formatB_of_mustBeZero hop hz⟩
  · subst ldi; exact ⟨fitsUnsigned16_zext16 w, formatI_of_mustBeZero hop hz⟩
  · subst mov; exact ⟨rfl, formatR_two_of_mustBeZero hop hz⟩
  · subst sqr; exact ⟨rfl, formatR_two_of_mustBeZero hop hz⟩
  · subst inc; exact ⟨rfl, formatR_two_of_mustBeZero hop hz⟩
  · subst dec; exact ⟨rfl, formatR_two_of_mustBeZero hop hz⟩
  · subst lcm; exact ⟨rfl, formatR_three_of_mustBeZero hop hz⟩
  · subst lfn; exact ⟨rfl, formatR_three_of_mustBeZero hop hz⟩
  · subst mul; exact ⟨rfl, formatR_three_of_mustBeZero hop hz⟩
  · subst modpow; exact ⟨rfl, formatR_four_of_mustBeZero hop hz⟩
  · subst modinv; exact ⟨rfl, formatR_inverse_of_mustBeZero hop hz⟩
  · subst modmul; exact ⟨rfl, formatR_four_of_mustBeZero hop hz⟩
  · subst montmul; exact ⟨rfl, formatR_four_of_mustBeZero hop hz⟩

theorem decodeWord_encode {i : Instr} (h : i.wellFormed = true) :
    decodeWord (encode i) = .ok i := by
  obtain ⟨r, hr, hm, hb⟩ := Laws.RowOfEncoding.all i h
  rw [decodeWord_of_row hr hm, hb]

/-- A word decodes to the one well-formed instruction it encodes, if any (rules R86, R94). -/
theorem decodeWord_eq_ok_iff {w : Word} {i : Instr} :
    decodeWord w = .ok i ↔ i.wellFormed = true ∧ encode i = w := by
  constructor
  · intro hd
    obtain ⟨r, hr, hm, rfl⟩ := decodeWord_ok hd
    exact row_encode_build hr hm
  · rintro ⟨hw, rfl⟩
    exact decodeWord_encode hw

/-- The reserved opcodes of rule R92. -/
def reservedOpcode (op : Nat) : Bool :=
  decide (op = 0x00 ∨ (0x0A ≤ op ∧ op ≤ 0x0F) ∨ op = 0x16 ∨ op = 0x17 ∨ 0x1C ≤ op)

theorem row_not_reserved {r : Row} (hr : r ∈ opcodeMap) :
    reservedOpcode (opcodeOf r.pattern) = false := by
  have hall : ∀ r ∈ opcodeMap, reservedOpcode (opcodeOf r.pattern) = false := by decide
  exact hall r hr

theorem opcodeOf_eq_div (w : Word) : opcodeOf w = w.toNat / 2 ^ 26 := by
  rw [opcodeOf, field_eq]
  omega

/-- A word with a reserved opcode is no instruction (rule R92). -/
theorem decodeWord_reserved {w : Word} (h : reservedOpcode (opcodeOf w) = true) :
    decodeWord w = .error .reservedOpcode := by
  have hno : ∀ r ∈ opcodeMap, opcodeOf r.pattern ≠ opcodeOf w := fun r hr e => by
    simp [← e, row_not_reserved hr] at h
  cases hd : decodeWord w with
  | ok i =>
    obtain ⟨r, hr, hm, -⟩ := decodeWord_ok hd
    exact absurd (row_opcode hr hm).symm (hno r hr)
  | error e =>
    cases e with
    | reservedOpcode => rfl
    | mustBeZero =>
      obtain ⟨r, hr, hop⟩ := (decodeWord_error hd).2.1 rfl
      exact absurd hop (hno r hr)

end Sys2Proof

namespace Sys2Proof.Machine

/-! ## The word at pc -/

section
variable {s : State} {rest : List Event} (hn : SequencerNext s rest) (hb : s.busy = true)
include hn hb

/-- A fetch past IMEM takes FETCH_RANGE with no word (rules R80, R140). -/
theorem step_fetchRange (hpc : s.params.imemWords ≤ s.pc.toNat) :
    step s = .next (takeFault .fetchRange 0 { s with env := rest }) := by
  have hf : { s with env := rest }.fetch = none := if_neg (Nat.not_lt.2 hpc)
  rw [step_of_sequencerNext_busy hn hb, seqStep, hf]

/-- A word that is no instruction takes ILLEGAL_INSTRUCTION (rules R91, R92, R140). -/
theorem step_illegal (hpc : s.pc.toNat < s.params.imemWords) {e : Illegal}
    (hd : decodeWord (s.imemWord s.pc.toNat) = .error e) :
    step s =
      .next (takeFault .illegalInstruction (s.imemWord s.pc.toNat) { s with env := rest }) := by
  have hf : { s with env := rest }.fetch = some (s.imemWord s.pc.toNat) := if_pos hpc
  rw [step_of_sequencerNext_busy hn hb, seqStep, hf]
  simp only [hd]

/-- A word that is an instruction runs as it (rule R140). -/
theorem step_decoded (hpc : s.pc.toNat < s.params.imemWords) {i : Instr}
    (hd : decodeWord (s.imemWord s.pc.toNat) = .ok i) : step s = exec i { s with env := rest } := by
  have hf : { s with env := rest }.fetch = some (s.imemWord s.pc.toNat) := if_pos hpc
  rw [step_of_sequencerNext_busy hn hb, seqStep, hf]
  simp only [hd]

end

/-! ## The assembler, line by line -/

theorem asmWord_eq_some {i : Instr} {w : Word} :
    asmWord i = some w ↔ i.wellFormed = true ∧ encode i = w := by
  simp [asmWord]

/-- The word of the instruction `f t` for the index `t` of a label, as the assembler makes it. -/
def asmTo (src : List AsmLine) (f : Nat → Instr) (name : Nat) : Option (List Word) := do
  let t ← labelIndex name 0 src
  let w ← asmWord (f t)
  pure [w]

theorem asmTo_eq_some {src : List AsmLine} {f : Nat → Instr} {name : Nat} {ws : List Word} :
    asmTo src f name = some ws ↔
      ∃ t, labelIndex name 0 src = some t ∧ (f t).wellFormed = true ∧ ws = [encode (f t)] := by
  simp only [asmTo, Option.bind_eq_bind, Option.bind_eq_some_iff, asmWord_eq_some, Option.pure_def,
    Option.some.injEq]
  constructor
  · rintro ⟨t, ht, w, ⟨hw, rfl⟩, rfl⟩
    exact ⟨t, ht, hw, rfl⟩
  · rintro ⟨t, ht, hw, rfl⟩
    exact ⟨t, ht, _, ⟨hw, rfl⟩, rfl⟩

section
variable (src : List AsmLine) (pc : Nat)

theorem asmLine_jmpTo (name : Nat) : asmLine src pc (.jmpTo name) =
    asmTo src (fun t => .jmp t) name := rfl

theorem asmLine_beqTo (ra rb : Reg) (name : Nat) : asmLine src pc (.beqTo ra rb name) =
    asmTo src (fun t => .beq ra rb ((t : Int) - pc)) name := rfl

theorem asmLine_bneTo (ra rb : Reg) (name : Nat) : asmLine src pc (.bneTo ra rb name) =
    asmTo src (fun t => .bne ra rb ((t : Int) - pc)) name := rfl

theorem asmLine_bltuTo (ra rb : Reg) (name : Nat) : asmLine src pc (.bltuTo ra rb name) =
    asmTo src (fun t => .bltu ra rb ((t : Int) - pc)) name := rfl

theorem asmLine_bgeuTo (ra rb : Reg) (name : Nat) : asmLine src pc (.bgeuTo ra rb name) =
    asmTo src (fun t => .bgeu ra rb ((t : Int) - pc)) name := rfl

theorem asmLine_instr_eq_some {i : Instr} {ws : List Word} :
    asmLine src pc (.instr i) = some ws ↔ i.wellFormed = true ∧ ws = [encode i] := by
  simp only [asmLine, Option.map_eq_some_iff, asmWord_eq_some]
  constructor
  · rintro ⟨w, ⟨hw, rfl⟩, rfl⟩
    exact ⟨hw, rfl⟩
  · rintro ⟨hw, rfl⟩
    exact ⟨_, ⟨hw, rfl⟩, rfl⟩

end

theorem asmTo_length {src : List AsmLine} {f : Nat → Instr} {name : Nat} {ws : List Word}
    (h : asmTo src f name = some ws) : ws.length = 1 := by
  obtain ⟨t, -, -, rfl⟩ := asmTo_eq_some.1 h
  rfl

/-- A line gives as many words as it is counted for. -/
theorem asmLine_length {src : List AsmLine} {pc : Nat} {l : AsmLine} {ws : List Word}
    (h : asmLine src pc l = some ws) : ws.length = l.size := by
  cases l with
  | label name => cases h; rfl
  | word v => cases h; rfl
  | instr i =>
    obtain ⟨-, rfl⟩ := (asmLine_instr_eq_some src pc).1 h
    rfl
  | jmpTo name => exact asmTo_length (asmLine_jmpTo src pc name ▸ h)
  | beqTo ra rb name => exact asmTo_length (asmLine_beqTo src pc ra rb name ▸ h)
  | bneTo ra rb name => exact asmTo_length (asmLine_bneTo src pc ra rb name ▸ h)
  | bltuTo ra rb name => exact asmTo_length (asmLine_bltuTo src pc ra rb name ▸ h)
  | bgeuTo ra rb name => exact asmTo_length (asmLine_bgeuTo src pc ra rb name ▸ h)

theorem asmFrom_cons_eq_some {src rest : List AsmLine} {pc : Nat} {l : AsmLine} {ws : List Word} :
    asmFrom src pc (l :: rest) = some ws ↔ ∃ first more, asmLine src pc l = some first ∧
      asmFrom src (pc + l.size) rest = some more ∧ ws = first ++ more := by
  simp only [asmFrom, Option.bind_eq_bind, Option.bind_eq_some_iff, Option.pure_def,
    Option.some.injEq]
  constructor
  · rintro ⟨first, h1, more, h2, rfl⟩
    exact ⟨first, more, h1, h2, rfl⟩
  · rintro ⟨first, more, h1, h2, rfl⟩
    exact ⟨first, h1, more, h2, rfl⟩

/-- The words of a line stand behind as many words as the lines before it are counted for. -/
theorem asmFrom_line {src rest : List AsmLine} {l : AsmLine} (before : List AsmLine) {pc : Nat}
    {ws : List Word} (h : asmFrom src pc (before ++ l :: rest) = some ws) :
    ∃ front words back, ws = front ++ words ++ back ∧
      front.length = (before.map AsmLine.size).sum ∧
      asmLine src (pc + (before.map AsmLine.size).sum) l = some words := by
  induction before generalizing pc ws with
  | nil =>
    obtain ⟨words, back, hl, -, rfl⟩ := asmFrom_cons_eq_some.1 h
    exact ⟨[], words, back, rfl, rfl, hl⟩
  | cons b before ih =>
    obtain ⟨first, more, hb, hmore, rfl⟩ := asmFrom_cons_eq_some.1 h
    obtain ⟨front, words, back, rfl, hlen, hl⟩ := ih hmore
    refine ⟨first ++ front, words, back, by simp, ?_, ?_⟩
    · simp [hlen, asmLine_length hb]
    · simpa [Nat.add_assoc] using hl

/-- An accepted line has its words, and the word of a line of one word stands at the line's index. -/
theorem assemble_line {before rest : List AsmLine} {l : AsmLine} {ws : List Word}
    (h : assemble (before ++ l :: rest) = some ws) : ∃ words,
      asmLine (before ++ l :: rest) (before.map AsmLine.size).sum l = some words ∧
      ∀ w, words = [w] → ws[(before.map AsmLine.size).sum]? = some w := by
  obtain ⟨front, words, back, rfl, hlen, hl⟩ := asmFrom_line before h
  rw [Nat.zero_add] at hl
  refine ⟨words, hl, ?_⟩
  rintro w rfl
  rw [← hlen]
  simp

/-- The first definition of a label counts the words before it (rule R95; log 22). -/
theorem labelIndex_first {name : Nat} {before : List AsmLine} (rest : List AsmLine)
    (h : .label name ∉ before) (pc : Nat) :
    labelIndex name pc (before ++ .label name :: rest) =
      some (pc + (before.map AsmLine.size).sum) := by
  induction before generalizing pc with
  | nil => simp [labelIndex]
  | cons b before ih =>
    rw [List.mem_cons, not_or] at h
    obtain ⟨hb, hrest⟩ := h
    simp [labelIndex, Ne.symm hb, ih hrest, Nat.add_assoc]

/-- A line that goes to a label has its word at the line's index, for the label's index. -/
theorem assemble_goesTo {before rest : List AsmLine} {l : AsmLine} {ws : List Word}
    {f : Nat → Instr} {name : Nat} (h : assemble (before ++ l :: rest) = some ws)
    (hl : asmLine (before ++ l :: rest) (before.map AsmLine.size).sum l =
      asmTo (before ++ l :: rest) f name) :
    ∃ t, labelIndex name 0 (before ++ l :: rest) = some t ∧ (f t).wellFormed = true ∧
      ws[(before.map AsmLine.size).sum]? = some (encode (f t)) := by
  obtain ⟨words, hwords, hat⟩ := assemble_line h
  obtain ⟨t, ht, hw, e⟩ := asmTo_eq_some.1 (hl.symm.trans hwords)
  exact ⟨t, ht, hw, hat _ e⟩

end Sys2Proof.Machine

namespace Sys2Proof.Proofs

open Sys2Proof Sys2Proof.Machine

/-- Settles O7: the word is found in the opcode map, in the row that builds the instruction. -/
theorem decodeOfEncodeIsTheInstruction : Obligations.DecodeOfEncodeIsTheInstruction :=
  fun _ h => decodeWord_encode h

/-- Settles O8: the row that matched fixes the opcode and the zero bits, and the instruction's fields
are all the other bits. -/
theorem encodeOfDecodeIsTheWord : Obligations.EncodeOfDecodeIsTheWord :=
  fun _ _ h => decodeWord_eq_ok_iff.1 h

/-- Settles O9: two rows that match a word have its opcode, and a row is known by its opcode. -/
theorem noTwoRowsMatchOneWord : Obligations.NoTwoRowsMatchOneWord := by
  refine ⟨rfl, fun j k hj hk hne h => hne (index_of_opcode hj hk h), fun w j k hj hk h1 h2 => ?_⟩
  have hop1 := row_opcode (List.getElem_mem hj) (w := w) (beq_iff_eq.2 h1)
  have hop2 := row_opcode (List.getElem_mem hk) (w := w) (beq_iff_eq.2 h2)
  exact index_of_opcode hj hk (hop1.symm.trans hop2)

/-- Settles O10: by what the word at pc decodes to; no row has a reserved opcode. -/
theorem everyWordIsOneInstructionOrIllegal : Obligations.EveryWordIsOneInstructionOrIllegal := by
  rintro s rest w hn hb hpc rfl
  constructor
  · cases hd : decodeWord (s.imemWord s.pc.toNat) with
    | ok i =>
      obtain ⟨hw, he⟩ := decodeWord_eq_ok_iff.1 hd
      refine .inl ⟨i, hw, he, fun j hj hej => ?_, step_decoded hn hb hpc hd⟩
      have hdj := decodeWord_eq_ok_iff.2 ⟨hj, hej⟩
      exact Except.ok.inj (hdj.symm.trans hd)
    | error e => exact .inr (step_illegal hn hb hpc hd)
  · intro hres
    rw [← opcodeOf_eq_div] at hres
    exact step_illegal hn hb hpc (decodeWord_reserved (decide_eq_true hres))

/-- Settles O11: the bits listed are the must-be-zero bits of the opcode's row. -/
theorem mustBeZeroBitsAreChecked : Obligations.MustBeZeroBitsAreChecked := by
  intro op mbz hmem w hop
  have hrow : (op, mbz) ∈ opcodeMap.map fun r => (opcodeOf r.pattern, r.mustBeZero) := hmem
  obtain ⟨r, hr, e⟩ := List.mem_map.1 hrow
  obtain ⟨rfl, rfl⟩ := Prod.mk.inj e
  rw [← opcodeOf_eq_div] at hop
  constructor
  · intro hz
    exact ⟨_, decodeWord_of_row hr ((row_matches_iff hr w).2 ⟨hop, hz⟩)⟩
  · intro hz
    have hd := decodeWord_mustBeZero hr hop hz
    refine ⟨hd, ?_⟩
    rintro s rest hn hb hpc rfl
    exact step_illegal hn hb hpc hd

/-- Settles O56: the words of each line stand at its index, and each kind of line has its words. -/
theorem assemblerPlacesEachLine : Obligations.AssemblerPlacesEachLine := by
  intro before rest l ws h
  cases l with
  | label name =>
    intro _ _ hno
    simpa using labelIndex_first rest hno 0
  | instr i =>
    obtain ⟨words, hwords, hat⟩ := assemble_line h
    obtain ⟨hw, e⟩ := (asmLine_instr_eq_some _ _).1 hwords
    exact ⟨hw, hat _ e⟩
  | word v =>
    obtain ⟨words, hwords, hat⟩ := assemble_line h
    exact hat v (Option.some.inj hwords).symm
  | jmpTo name => exact assemble_goesTo h (asmLine_jmpTo _ _ name)
  | beqTo ra rb name => exact assemble_goesTo h (asmLine_beqTo _ _ ra rb name)
  | bneTo ra rb name => exact assemble_goesTo h (asmLine_bneTo _ _ ra rb name)
  | bltuTo ra rb name => exact assemble_goesTo h (asmLine_bltuTo _ _ ra rb name)
  | bgeuTo ra rb name => exact assemble_goesTo h (asmLine_bgeuTo _ _ ra rb name)

/-- Settles O12: the words are evaluated, and decoding is encoding read backwards. -/
theorem writtenOutWordsDecode : Obligations.WrittenOutWordsDecode := by
  simp only [Obligations.WrittenOutWordsDecode, decodeWord_eq_ok_iff]
  decide

/-- Settles O14: the fetch finds no word. -/
theorem fetchPastImemRaisesFetchRange : Obligations.FetchPastImemRaisesFetchRange :=
  fun _ _ hn hb hpc => step_fetchRange hn hb hpc

end Sys2Proof.Proofs
end

section
/-! Integer arithmetic: what each instruction of the family answers, by the checks of its rule in their
order; and the proofs of the statements about them. -/

namespace Sys2Proof.Machine

/-! ## SQR, INC and MUL: the one check is that the result fits -/

/-- An instruction that ends in the check of its result retires when the result fits, else takes
OVERFLOW (rules R100, R107). -/
theorem exec_retires_or_overflows {i : Instr} {rd : Reg} {v : Nat} {s : State}
    (h : exec i s = retireIfFits i rd v s) :
    (v < 2 ^ s.params.width → exec i s = .next (retire rd v s)) ∧
      (2 ^ s.params.width ≤ v → exec i s = .next (takeFault .overflow (encode i) s)) :=
  ⟨fun hfits => h.trans (retireIfFits_fits hfits), fun hover => h.trans (retireIfFits_overflows hover)⟩

theorem exec_sqr (rd ra : Reg) (s : State) :
    exec (.sqr rd ra) s = retireIfFits (.sqr rd ra) rd (s.reg ra * s.reg ra) s := rfl

theorem exec_inc (rd ra : Reg) (s : State) :
    exec (.inc rd ra) s = retireIfFits (.inc rd ra) rd (s.reg ra + 1) s := rfl

theorem exec_mul (rd ra rb : Reg) (s : State) :
    exec (.mul rd ra rb) s = retireIfFits (.mul rd ra rb) rd (s.reg ra * s.reg rb) s := rfl

/-! ## DEC, LCM and LFN: the operands are checked first -/

/-- Rule R10's quotient is the least common multiple. -/
theorem lcmOf_eq_lcm (a b : Nat) : lcmOf a b = Nat.lcm a b := rfl

section
variable {rd ra rb : Reg} {s : State}

theorem exec_dec_zero (ha : s.reg ra = 0) :
    exec (.dec rd ra) s = .next (takeFault .range (encode (.dec rd ra)) s) := if_pos ha

theorem exec_dec_pos (ha : s.reg ra ≠ 0) :
    exec (.dec rd ra) s = .next (retire rd (s.reg ra - 1) s) := if_neg ha

/-- The greatest common divisor is 0 exactly when both operands are (rules R10, R104). -/
theorem exec_lcm_zeroes (ha : s.reg ra = 0) (hb : s.reg rb = 0) :
    exec (.lcm rd ra rb) s = .next (takeFault .zeroDivide (encode (.lcm rd ra rb)) s) :=
  if_pos (Nat.gcd_eq_zero_iff.2 ⟨ha, hb⟩)

theorem exec_lcm_not_zeroes (h : s.reg ra ≠ 0 ∨ s.reg rb ≠ 0) :
    exec (.lcm rd ra rb) s =
      retireIfFits (.lcm rd ra rb) rd (lcmOf (s.reg ra) (s.reg rb)) s :=
  if_neg fun hg => (not_and_or.2 h) (Nat.gcd_eq_zero_iff.1 hg)

theorem exec_lfn_zeroDivide (hn : s.reg rb = 0) :
    exec (.lfn rd ra rb) s = .next (takeFault .zeroDivide (encode (.lfn rd ra rb)) s) := if_pos hn

theorem exec_lfn_range (hn : s.reg rb ≠ 0) (hx : s.reg ra = 0) :
    exec (.lfn rd ra rb) s = .next (takeFault .range (encode (.lfn rd ra rb)) s) :=
  (if_neg hn).trans (if_pos hx)

theorem exec_lfn_pos (hn : s.reg rb ≠ 0) (hx : s.reg ra ≠ 0) :
    exec (.lfn rd ra rb) s = .next (retire rd (lfnOf (s.reg ra) (s.reg rb)) s) :=
  (if_neg hn).trans (if_neg hx)

end

end Sys2Proof.Machine

namespace Sys2Proof.Proofs

open Sys2Proof Sys2Proof.Machine

/-- Settles O27: past the check of the two operands LCM retires if the quotient it computes, which is
the least common multiple, fits. -/
theorem lcmWritesTheLeastCommonMultiple : Obligations.LcmWritesTheLeastCommonMultiple := by
  intro rd ra rb s
  refine ⟨decodeWord_encode (i := .lcm rd ra rb) rfl, exec_lcm_zeroes, fun h hfits => ?_,
    fun h hover => ?_⟩
  · rw [← lcmOf_eq_lcm] at hfits
    exact (exec_retires_or_overflows (exec_lcm_not_zeroes h)).1 hfits
  · rw [← lcmOf_eq_lcm] at hover
    exact (exec_retires_or_overflows (exec_lcm_not_zeroes h)).2 hover

/-- Settles O24: the square is the result checked. -/
theorem sqrSquaresOrOverflows : Obligations.SqrSquaresOrOverflows := fun rd ra s =>
  ⟨decodeWord_encode (i := .sqr rd ra) rfl, exec_retires_or_overflows (exec_sqr rd ra s)⟩

/-- Settles O25: the successor is the result checked. -/
theorem incIncrementsOrOverflows : Obligations.IncIncrementsOrOverflows := fun rd ra s =>
  ⟨decodeWord_encode (i := .inc rd ra) rfl, exec_retires_or_overflows (exec_inc rd ra s)⟩

/-- Settles O26, by the check of the operand. -/
theorem decDecrementsOrRaisesRange : Obligations.DecDecrementsOrRaisesRange := fun rd ra _ =>
  ⟨decodeWord_encode (i := .dec rd ra) rfl, exec_dec_pos, exec_dec_zero⟩

/-- Settles O28, by the two checks in their order. -/
theorem lfnWritesTheLFunction : Obligations.LfnWritesTheLFunction := fun rd ra rb _ =>
  ⟨decodeWord_encode (i := .lfn rd ra rb) rfl, exec_lfn_zeroDivide, exec_lfn_range, exec_lfn_pos⟩

/-- Settles O29: the full product is the result checked. -/
theorem mulMultipliesOrOverflows : Obligations.MulMultipliesOrOverflows := fun rd ra rb s =>
  ⟨decodeWord_encode (i := .mul rd ra rb) rfl, exec_retires_or_overflows (exec_mul rd ra rb s)⟩

end Sys2Proof.Proofs
end

section
/-! Modular arithmetic: what each instruction of the family answers, by the checks of its rule in their
order; Montgomery products by their congruences; the reference algorithms of the units; and the proofs
of the statements about them. -/

namespace Sys2Proof.Machine

/-! ## The instructions: the modulus is checked first (rule R120) -/

section
variable {rd ra rb rc : Reg} {s : State}

theorem exec_modpow_zeroModulus (hm : s.reg rc = 0) : exec (.modpow rd ra rb rc) s =
    .next (takeFault .zeroModulus (encode (.modpow rd ra rb rc)) s) := if_pos hm

theorem exec_modpow_pos (hm : s.reg rc ≠ 0) : exec (.modpow rd ra rb rc) s =
    .next (retire rd (s.reg ra ^ s.reg rb % s.reg rc) s) := by
  rw [← powMod_eq]
  exact if_neg hm

theorem exec_modinv_zeroModulus (hm : s.reg rc = 0) : exec (.modinv rd ra rc) s =
    .next (takeFault .zeroModulus (encode (.modinv rd ra rc)) s) := if_pos hm

theorem exec_modinv_inverseError (hm : s.reg rc ≠ 0) (hg : Nat.gcd (s.reg ra) (s.reg rc) ≠ 1) :
    exec (.modinv rd ra rc) s =
      .next (takeFault .inverseError (encode (.modinv rd ra rc)) s) :=
  (if_neg hm).trans (if_pos hg)

theorem exec_modinv_coprime (hm : s.reg rc ≠ 0) (hg : Nat.gcd (s.reg ra) (s.reg rc) = 1) :
    exec (.modinv rd ra rc) s = .next (retire rd (modInv (s.reg ra) (s.reg rc)) s) :=
  (if_neg hm).trans (if_neg (not_not.2 hg))

theorem exec_modmul_zeroModulus (hm : s.reg rc = 0) : exec (.modmul rd ra rb rc) s =
    .next (takeFault .zeroModulus (encode (.modmul rd ra rb rc)) s) := if_pos hm

theorem exec_modmul_pos (hm : s.reg rc ≠ 0) : exec (.modmul rd ra rb rc) s =
    .next (retire rd (s.reg ra * s.reg rb % s.reg rc) s) := if_neg hm

theorem exec_montmul_zeroModulus (hm : s.reg rc = 0) : exec (.montmul rd ra rb rc) s =
    .next (takeFault .zeroModulus (encode (.montmul rd ra rb rc)) s) := if_pos hm

theorem exec_montmul_evenModulus (hm : s.reg rc ≠ 0) (heven : s.reg rc % 2 = 0) :
    exec (.montmul rd ra rb rc) s =
      .next (takeFault .evenModulus (encode (.montmul rd ra rb rc)) s) :=
  (if_neg hm).trans (if_pos heven)

theorem exec_montmul_odd (hodd : s.reg rc % 2 = 1) : exec (.montmul rd ra rb rc) s =
    .next (retire rd (montProduct s.params.width (s.reg ra) (s.reg rb) (s.reg rc)) s) :=
  (if_neg (by omega)).trans (if_neg (by omega))

end

/-! ## Montgomery products as congruences -/

section
variable {w m : Nat} (hodd : m % 2 = 1)
include hodd

/-- The radix is a unit for an odd modulus. -/
theorem modEq_of_mul_radix {x y : Nat} (h : x * 2 ^ w ≡ y * 2 ^ w [MOD m]) : x ≡ y [MOD m] := by
  have hc := coprime_two_pow hodd w
  rw [← Nat.gcd_rec] at hc
  exact Nat.ModEq.cancel_right_of_coprime hc h

/-- A Montgomery product with R2 = 2^(2W) mod m takes a value into Montgomery form. -/
theorem montProduct_radix_sq (u : Nat) :
    montProduct w u (2 ^ (2 * w) % m) m ≡ u * 2 ^ w [MOD m] := by
  refine modEq_of_mul_radix hodd (w := w) ?_
  calc montProduct w u (2 ^ (2 * w) % m) m * 2 ^ w
      ≡ u * (2 ^ (2 * w) % m) [MOD m] := montProduct_mul_radix w u _ hodd
    _ ≡ u * 2 ^ (2 * w) [MOD m] := (Nat.mod_modEq _ _).mul_left u
    _ = u * 2 ^ w * 2 ^ w := by rw [two_mul, pow_add, mul_assoc]

/-- The Montgomery product of two values in Montgomery form is the form of their product. -/
theorem montProduct_of_forms {u v x y : Nat} (hu : u ≡ x * 2 ^ w [MOD m])
    (hv : v ≡ y * 2 ^ w [MOD m]) : montProduct w u v m ≡ x * y * 2 ^ w [MOD m] := by
  refine modEq_of_mul_radix hodd (w := w) ?_
  calc montProduct w u v m * 2 ^ w
      ≡ u * v [MOD m] := montProduct_mul_radix w u v hodd
    _ ≡ x * 2 ^ w * (y * 2 ^ w) [MOD m] := hu.mul hv
    _ = x * y * 2 ^ w * 2 ^ w := by ring

/-- A Montgomery product with 1 takes a value out of Montgomery form. -/
theorem montProduct_one_of_form {u x : Nat} (hu : u ≡ x * 2 ^ w [MOD m]) :
    montProduct w u 1 m = x % m := by
  refine (eq_montProduct hodd (Nat.mod_lt x (by omega)) ?_).symm
  rw [Nat.mod_mul_mod, mul_one]
  exact hu.symm

/-- Two Montgomery products, the second with R2, make the modular product (rule R133). -/
theorem montProduct_twice (a b : Nat) :
    montProduct w (montProduct w a b m) (2 ^ (2 * w) % m) m = a * b % m := by
  have h := (montProduct_radix_sq hodd _).trans (montProduct_mul_radix w a b hodd)
  rwa [Nat.ModEq, Nat.mod_eq_of_lt (montProduct_lt _ _ _ (by omega))] at h

/-! ## The exponentiation unit (rule R122) -/

/-- The loop on the form of x: each of the n low bits of e squares x, and a bit that is 1 multiplies
the base in. -/
theorem ladder_form (e : Nat) {b bm : Nat} (hb : bm ≡ b * 2 ^ w [MOD m]) (n : Nat) {acc x : Nat}
    (hacc : acc ≡ x * 2 ^ w [MOD m]) :
    ladder w e m bm n acc ≡ x ^ 2 ^ n * b ^ (e % 2 ^ n) * 2 ^ w [MOD m] := by
  induction n generalizing acc x with
  | zero => simpa [ladder, Nat.mod_one] using hacc
  | succ n ih =>
    have hsq := montProduct_of_forms hodd hacc hacc
    have hturn : (if e.testBit n then montProduct w (montProduct w acc acc m) bm m
        else montProduct w acc acc m) ≡ x * x * b ^ (e.testBit n).toNat * 2 ^ w [MOD m] := by
      cases e.testBit n with
      | false => simpa using hsq
      | true => simpa using montProduct_of_forms hodd hsq hb
    have hpow : x ^ 2 ^ (n + 1) * b ^ (e % 2 ^ (n + 1)) =
        (x * x * b ^ (e.testBit n).toNat) ^ 2 ^ n * b ^ (e % 2 ^ n) := by
      rw [Nat.mod_pow_succ, ← Nat.toNat_testBit]
      ring
    rw [ladder, hpow]
    exact ih hturn

theorem ladderPow_eq (b : Nat) {e : Nat} (he : e < 2 ^ w) : ladderPow w b e m = b ^ e % m := by
  by_cases hm : m = 1
  · rw [ladderPow, if_pos hm, hm, Nat.mod_one]
  · rw [ladderPow, if_neg hm]
    have hbase := (montProduct_radix_sq hodd (w := w) (b % m)).trans
      ((Nat.mod_modEq b m).mul_right _)
    have hloop := ladder_form hodd e hbase w (montProduct_radix_sq hodd 1)
    rw [one_pow, one_mul, Nat.mod_eq_of_lt he] at hloop
    exact montProduct_one_of_form hodd hloop

end

/-! ## The Montgomery multiplier (rule R132) -/

/-- The constant m' is the negative inverse of an odd m modulo 2^32. -/
theorem mul_negInv32 {m : Nat} (hodd : m % 2 = 1) : 2 ^ 32 ∣ m * negInv32 m + 1 := by
  have hcop : Nat.gcd (m % 2 ^ 32) (2 ^ 32) = 1 :=
    Nat.Coprime.pow_right 32 (Nat.coprime_two_right.2 (Nat.odd_iff.2 (by omega)))
  have hlt := modInv_lt (m % 2 ^ 32) (m := 2 ^ 32) (by omega)
  have hinv : m * modInv (m % 2 ^ 32) (2 ^ 32) ≡ 1 [MOD 2 ^ 32] := by
    have h := mul_modInv (by omega) hcop
    rwa [Nat.mod_mul_mod] at h
  refine (Nat.modEq_zero_iff_dvd).1 ?_
  calc m * negInv32 m + 1
      ≡ m * (2 ^ 32 - modInv (m % 2 ^ 32) (2 ^ 32)) + m * modInv (m % 2 ^ 32) (2 ^ 32)
        [MOD 2 ^ 32] := ((Nat.mod_modEq _ _).mul_left m).add hinv.symm
    _ = m * 2 ^ 32 := by rw [← Nat.mul_add, Nat.sub_add_cancel hlt.le]
    _ ≡ 0 [MOD 2 ^ 32] := (Nat.modEq_zero_iff_dvd).2 (Nat.dvd_mul_left _ _)

/-- A turn's division is exact: the quotient digit q cancels the low limb. -/
theorem ciosTurn_exact (a b : Nat) {m : Nat} (hodd : m % 2 = 1) (i t : Nat) :
    ∃ q, q < 2 ^ 32 ∧ ciosTurn a b m (negInv32 m) i t * 2 ^ 32 = t + a * (limb b i).toNat + q * m := by
  refine ⟨_, Nat.mod_lt _ (by omega), Nat.div_mul_cancel ((Nat.modEq_zero_iff_dvd).1 ?_)⟩
  generalize t + a * (limb b i).toNat = u
  calc u + u % 2 ^ 32 * negInv32 m % 2 ^ 32 * m
      ≡ u + u * negInv32 m * m [MOD 2 ^ 32] :=
        ((((Nat.mod_modEq _ _).trans ((Nat.mod_modEq _ _).mul_right _)).mul_right m).add_left u)
    _ = u * (m * negInv32 m + 1) := by ring
    _ ≡ 0 [MOD 2 ^ 32] := (Nat.modEq_zero_iff_dvd).2 (Dvd.dvd.mul_left (mul_negInv32 hodd) u)

/-- After n turns T = (a * b + Q * m) / 2^(32n) exactly, with b cut to its n low limbs, for some Q below
2^(32n) (rule R132). -/
theorem ciosLoop_exact (a b : Nat) {m : Nat} (hodd : m % 2 = 1) (n : Nat) :
    ∃ q, q < 2 ^ (32 * n) ∧
      ciosLoop a b m (negInv32 m) n * 2 ^ (32 * n) = a * (b % 2 ^ (32 * n)) + q * m := by
  induction n with
  | zero => exact ⟨0, by simp [ciosLoop, Nat.mod_one]⟩
  | succ n ih =>
    obtain ⟨q, hq, hloop⟩ := ih
    obtain ⟨d, hd, hturn⟩ := ciosTurn_exact a b hodd n (ciosLoop a b m (negInv32 m) n)
    have hpow : 2 ^ (32 * (n + 1)) = 2 ^ 32 * 2 ^ (32 * n) := by rw [Nat.mul_succ, pow_add, mul_comm]
    refine ⟨q + d * 2 ^ (32 * n), ?_, ?_⟩
    · calc q + d * 2 ^ (32 * n) < (d + 1) * 2 ^ (32 * n) := by rw [add_one_mul]; omega
        _ ≤ 2 ^ 32 * 2 ^ (32 * n) := Nat.mul_le_mul_right _ hd
        _ = 2 ^ (32 * (n + 1)) := hpow.symm
    · rw [ciosLoop, hpow, ← mul_assoc, hturn, add_mul, add_mul, hloop, ← hpow, mod_pow_succ_limb]
      ring

section
variable {m : Nat} (hodd : m % 2 = 1) (n a b : Nat)
include hodd

/-- With reduced inputs T is below 2m, because Q and b are below 2^(32n). -/
theorem ciosLoop_lt : ciosLoop (a % m) (b % m) m (negInv32 m) n < 2 * m := by
  obtain ⟨q, hq, h⟩ := ciosLoop_exact (a % m) (b % m) hodd n
  have hpos : 0 < m := by omega
  refine Nat.lt_of_mul_lt_mul_right (a := 2 ^ (32 * n)) ?_
  calc ciosLoop (a % m) (b % m) m (negInv32 m) n * 2 ^ (32 * n)
      = a % m * (b % m % 2 ^ (32 * n)) + q * m := h
    _ < m * 2 ^ (32 * n) + 2 ^ (32 * n) * m :=
        Nat.add_lt_add
          (Nat.mul_lt_mul'' (Nat.mod_lt _ hpos) (Nat.mod_lt _ (Nat.two_pow_pos _)))
          (Nat.mul_lt_mul_of_pos_right hq hpos)
    _ = 2 * m * 2 ^ (32 * n) := by ring

theorem ciosLoop_mul_radix (hm : m < 2 ^ (32 * n)) :
    ciosLoop (a % m) (b % m) m (negInv32 m) n * 2 ^ (32 * n) ≡ a * b [MOD m] := by
  obtain ⟨q, -, h⟩ := ciosLoop_exact (a % m) (b % m) hodd n
  have hb : b % m < 2 ^ (32 * n) := (Nat.mod_lt _ (by omega)).trans hm
  rw [h, Nat.mod_eq_of_lt hb, Nat.ModEq, Nat.add_mul_mod_self_right, ← Nat.mul_mod]

/-- The conditional subtraction takes T, which is below 2m, to its remainder. -/
theorem ciosProduct_eq :
    ciosProduct n a b m = ciosLoop (a % m) (b % m) m (negInv32 m) n % m := by
  have h := ciosLoop_lt hodd n a b
  rw [ciosProduct]
  split
  case isTrue hle =>
    rw [Nat.mod_eq_sub_mod hle]
    exact (Nat.mod_eq_of_lt (by omega)).symm
  case isFalse hlt => exact (Nat.mod_eq_of_lt (by omega)).symm

end

/-! ## The inverse engine (rule R126) -/

/-- The engine answers MODINV's value, unless the greatest common divisor is not 1. -/
theorem inverseEngine_eq (a : Nat) {m : Nat} (hm : 0 < m) :
    inverseEngine a m = if Nat.gcd a m ≠ 1 then none else some (modInv a m) := by
  rw [inverseEngine, (euclid_spec a hm).1]
  rfl

end Sys2Proof.Machine

namespace Sys2Proof.Proofs

open Sys2Proof Sys2Proof.Machine

/-- Settles O30, by the check of the modulus. -/
theorem modpowWritesThePower : Obligations.ModpowWritesThePower := fun rd ra rb rc _ =>
  ⟨decodeWord_encode (i := .modpow rd ra rb rc) rfl, exec_modpow_zeroModulus, exec_modpow_pos⟩

/-- Settles O31: past the two checks MODINV retires with the inverse, and there is only one. -/
theorem modinvWritesTheInverse : Obligations.ModinvWritesTheInverse := by
  intro rd ra rc s
  refine ⟨decodeWord_encode (i := .modinv rd ra rc) rfl, exec_modinv_zeroModulus,
    exec_modinv_inverseError, fun hm hg => ?_⟩
  have hpos : 0 < s.reg rc := Nat.pos_of_ne_zero hm
  have hlt := modInv_lt (s.reg ra) hpos
  have hinv : s.reg ra % s.reg rc * modInv (s.reg ra) (s.reg rc) % s.reg rc = 1 % s.reg rc := by
    rw [Nat.mod_mul_mod, mul_modInv hpos hg]
  exact ⟨_, exec_modinv_coprime hm hg, hlt, hinv, fun z hz hzinv => inverse_unique hz hlt hzinv hinv⟩

/-- Settles O33: for an odd modulus the power of two has an inverse, and the Montgomery product is
computed with it. -/
theorem montmulWritesTheMontgomeryProduct : Obligations.MontmulWritesTheMontgomeryProduct := by
  intro rd ra rb rc s
  refine ⟨decodeWord_encode (i := .montmul rd ra rb rc) rfl, exec_montmul_zeroModulus,
    exec_montmul_evenModulus, fun hodd => ?_⟩
  have hpos : 0 < s.reg rc := by omega
  exact ⟨_, modInv_lt _ hpos, mul_modInv hpos (coprime_two_pow hodd _), exec_montmul_odd hodd⟩

/-- Settles O34: the first product leaves the modulus and R2 in their registers, and the second then
takes the radix out again. -/
theorem twoMontgomeryProductsMakeAModularProduct :
    Obligations.TwoMontgomeryProductsMakeAModularProduct := by
  refine ⟨fun rd ra rb rc rk s hrc hrk hodd hr2 => ?_, fun p hp => ?_,
    fun rq rx ry rc s hodd hx hy => ?_⟩
  · refine ⟨_, _, _, exec_montmul_odd hodd, exec_montmul_odd ?_, exec_modmul_pos (by omega), ?_⟩
    · rwa [reg_retire, if_neg hrc.symm]
    · simp only [reg_retire, if_neg hrc.symm, if_neg hrk.symm, retire_params, if_true, hr2]
      exact montProduct_twice hodd _ _
  · have hn := (legal_bounds hp).2.1
    rw [Params.width]
    omega
  · refine ⟨_, exec_modpow_pos (by omega), ?_⟩
    rw [reg_retire_same, hx, hy]

/-- Settles O57: the loop's exact value gives the bound and the congruence, and the subtraction is a
remainder. -/
theorem ciosComputesTheMontgomeryProduct : Obligations.CiosComputesTheMontgomeryProduct := by
  intro n a b m hodd hm
  rw [ciosProduct_eq hodd, Nat.mod_mul_mod]
  exact ⟨ciosLoop_lt hodd n a b, Nat.mod_lt _ (by omega), ciosLoop_mul_radix hodd n a b hm⟩

/-- Settles O58: by the Montgomery forms the loop keeps. -/
theorem ladderComputesThePower : Obligations.LadderComputesThePower :=
  fun _ b _ _ hodd he => ladderPow_eq hodd b he

/-- Settles O59: the engine is MODINV's check and MODINV's value. -/
theorem inverseEngineComputesTheInverse : Obligations.InverseEngineComputesTheInverse := by
  intro a m hm
  rw [inverseEngine_eq a hm]
  by_cases hg : Nat.gcd a m = 1
  · rw [if_neg (not_not.2 hg)]
    refine ⟨by simp [hg], fun y hy => ?_⟩
    obtain rfl := Option.some.inj hy
    exact ⟨modInv_lt a hm, mul_modInv hm hg⟩
  · rw [if_pos hg]
    exact ⟨by simp [hg], fun y hy => nomatch hy⟩

/-- Settles O32, by the check of the modulus. -/
theorem modmulWritesTheProduct : Obligations.ModmulWritesTheProduct := fun rd ra rb rc _ =>
  ⟨decodeWord_encode (i := .modmul rd ra rb rc) rfl, exec_modmul_zeroModulus, exec_modmul_pos⟩

end Sys2Proof.Proofs
end

section
/-! Data movement and control transfer: the words of an instruction, the target of a transfer, what
each instruction of the family answers; and the proofs of the statements about them. -/

namespace Sys2Proof

/-! ## The words of an instruction -/

/-- An instruction is read from its own word and from no other (rule R86). -/
theorem decodeWord_eq_iff_encode {i : Instr} (h : i.wellFormed = true) {w : Word} :
    decodeWord w = .ok i ↔ w = encode i := by
  rw [decodeWord_eq_ok_iff, and_iff_right h, eq_comm]

/-- A word with a row's opcode that is not the row's instruction is refused for a must-be-zero bit
(rule R91). -/
theorem decodeWord_other_mustBeZero {r : Row} (hr : r ∈ opcodeMap) {w : Word}
    (hop : opcodeOf w = opcodeOf r.pattern) (hne : decodeWord w ≠ .ok (r.build w)) :
    decodeWord w = .error .mustBeZero :=
  decodeWord_mustBeZero hr hop fun hz =>
    hne (decodeWord_of_row hr ((row_matches_iff hr w).2 ⟨hop, hz⟩))

/-- A 16-bit unsigned operand is its own field (rules R87, R89). -/
theorem bits16_of_le {v : Nat} (h : v ≤ 65535) : bits16 v = v := Nat.mod_eq_of_lt (by omega)

end Sys2Proof

namespace Sys2Proof.Machine

/-! ## Targets -/

theorem jumpTarget_toNat (tgt : Nat) : (jumpTarget tgt).toNat = bits16 tgt :=
  BitVec.toNat_ofNat tgt 16

theorem branchTarget_toNat (pc : BitVec 16) (off : Int) :
    ((branchTarget pc off).toNat : Int) = (pc.toNat + off) % 65536 := by
  rw [branchTarget, BitVec.toNat_ofInt]
  omega

/-! ## What each instruction of the family answers -/

theorem exec_nop (s : State) : exec .nop s = .next (advance s) := rfl

theorem exec_halt (s : State) : exec .halt s = .next (haltRun s) := rfl

theorem exec_jmp (tgt : Nat) (s : State) :
    exec (.jmp tgt) s = .next (jumpTo (jumpTarget tgt) s) := rfl

theorem exec_ldi (rd : Reg) {imm : Nat} (h : imm ≤ 65535) (s : State) :
    exec (.ldi rd imm) s = .next (retire rd imm s) := by
  rw [exec, execLdi, immValue, bits16_of_le h]

theorem exec_mov (rd ra : Reg) (s : State) :
    exec (.mov rd ra) s = .next (retire rd (s.reg ra) s) := rfl

section
variable (ra rb : Reg) (off : Int) (s : State)

theorem exec_beq : exec (.beq ra rb off) s =
    .next (branchIf (decide (s.reg ra = s.reg rb)) off s) := rfl

theorem exec_bne : exec (.bne ra rb off) s =
    .next (branchIf (decide (s.reg ra ≠ s.reg rb)) off s) := rfl

theorem exec_bltu : exec (.bltu ra rb off) s =
    .next (branchIf (decide (s.reg ra < s.reg rb)) off s) := rfl

theorem exec_bgeu : exec (.bgeu ra rb off) s =
    .next (branchIf (decide (s.reg rb ≤ s.reg ra)) off s) := rfl

end

/-- A conditional branch goes to its target when its condition holds, else to the next index (rules
R141, R146 to R149). -/
theorem exec_branches {i : Instr} {c : Prop} [Decidable c] {off : Int} {s : State}
    (h : exec i s = .next (branchIf (decide c) off s)) :
    (c → ∃ t, exec i s = .next t ∧ t = { s with pc := t.pc } ∧
      (t.pc.toNat : Int) = (s.pc.toNat + off) % 65536) ∧
    (¬ c → exec i s = .next { s with pc := s.pc + 1 }) := by
  rw [h, branchIf_eq]
  constructor
  · intro hc
    rw [if_pos (decide_eq_true hc)]
    exact ⟨_, rfl, rfl, branchTarget_toNat s.pc off⟩
  · intro hc
    rw [if_neg (by simpa using hc), jumpTo]

/-- Past the last index of a legal IMEM pc does not wrap to 0 (rules R5, R24). -/
theorem imemWords_le_pc_succ {s : State} (hp : s.params.legal = true)
    (hlast : s.pc.toNat + 1 = s.params.imemWords) : s.params.imemWords ≤ (s.pc + 1).toNat := by
  obtain ⟨-, -, -, himem, -⟩ := legal_bounds hp
  have hadd : (s.pc + 1).toNat = (s.pc.toNat + 1) % 2 ^ 16 := BitVec.toNat_add s.pc 1
  omega

/-- A START on an idle block without a fault begins a run, with IRQ_EN as written (rules R30,
R177). -/
theorem step_accepted_start {s : State} {v : Word} {rest : List Event}
    (he : s.env = .access (.write (s.params.base + 0x008) 4 v) :: rest) (hb : s.busy = false)
    (hf : s.fault = false) (h0 : v.getLsbD 0 = true) (h1 : v.getLsbD 1 = false) :
    step s = .next { s with env := rest, irqEn := v.getLsbD 2, done := false, busy := true } := by
  rw [step_hostWrite he (by decide), memWrite_ctrl, writeCtrl_start h1 h0]
  exact congrArg _ (start_accepted hb hf)

end Sys2Proof.Machine

namespace Sys2Proof.Proofs

open Sys2Proof Sys2Proof.Machine

/-- Settles O13: with no event listed the sequencer's turn leaves the empty list. -/
theorem stepRunsTheDecodedInstruction : Obligations.StepRunsTheDecodedInstruction := by
  intro s i hb hpc hd
  refine ⟨fun he => ?_, fun rest he => step_decoded (.inr he) hb hpc hd⟩
  rw [step_decoded (.inl ⟨he, rfl⟩) hb hpc hd, ← he]

/-- Settles O15: NOP's row checks every bit, and the index past the last one finds no word. -/
theorem nopAdvancesPcOnly : Obligations.NopAdvancesPcOnly := by
  have hword (w : Word) : decodeWord w = .ok .nop ↔ w = 0x04000000 := decodeWord_eq_iff_encode rfl
  refine ⟨hword, fun w hop hne => ?_, fun s => ⟨exec_nop s, fun rest hn hp hb hlast => ?_⟩⟩
  · rw [← opcodeOf_eq_div] at hop
    have hrow : (⟨0xFFFFFFFF, 0x04000000, fun _ => .nop⟩ : Row) ∈ opcodeMap := .head _
    exact decodeWord_other_mustBeZero hrow hop fun hd => hne ((hword w).1 hd)
  · exact step_fetchRange (s := { s with pc := s.pc + 1 }) hn hb (imemWords_le_pc_succ hp hlast)

/-- Settles O16: the immediate is its own field. -/
theorem ldiLoadsTheImmediate : Obligations.LdiLoadsTheImmediate := by
  intro rd imm s himm
  refine ⟨?_, exec_ldi rd himm s⟩
  have hd := decodeWord_encode (i := .ldi rd imm) (decide_eq_true himm)
  rwa [encode, bits16_of_le himm] at hd

/-- Settles O17, by the meaning of MOV. -/
theorem movCopiesTheRegister : Obligations.MovCopiesTheRegister := fun rd ra s =>
  ⟨decodeWord_encode (i := .mov rd ra) rfl, exec_mov rd ra s⟩

/-- Settles O18: the target is its own field, and the next fetch there finds no word. -/
theorem jmpSetsPc : Obligations.JmpSetsPc := by
  intro tgt s htgt
  have hpc : (jumpTarget tgt).toNat = tgt := (jumpTarget_toNat tgt).trans (bits16_of_le htgt)
  have hd := decodeWord_encode (i := .jmp tgt) (decide_eq_true htgt)
  rw [encode, bits16_of_le htgt] at hd
  refine ⟨hd, _, exec_jmp tgt s, rfl, hpc, fun rest hn hb hend => ?_⟩
  exact step_fetchRange (s := jumpTo (jumpTarget tgt) s) hn hb (hend.trans_eq hpc.symm)

/-- Settles O19, by the two ways of a branch. -/
theorem beqBranchesWhenEqual : Obligations.BeqBranchesWhenEqual := fun ra rb off s hlo hhi =>
  ⟨decodeWord_encode (i := .beq ra rb off) (decide_eq_true ⟨hlo, hhi⟩),
    exec_branches (exec_beq ra rb off s)⟩

/-- Settles O20, by the two ways of a branch. -/
theorem bneBranchesWhenNotEqual : Obligations.BneBranchesWhenNotEqual := by
  intro ra rb off s hlo hhi
  obtain ⟨htaken, hnot⟩ := exec_branches (exec_bne ra rb off s)
  exact ⟨decodeWord_encode (i := .bne ra rb off) (decide_eq_true ⟨hlo, hhi⟩), htaken,
    fun heq => hnot (not_not.2 heq)⟩

/-- Settles O21, by the two ways of a branch. -/
theorem bltuBranchesWhenBelow : Obligations.BltuBranchesWhenBelow := by
  intro ra rb off s hlo hhi
  obtain ⟨htaken, hnot⟩ := exec_branches (exec_bltu ra rb off s)
  exact ⟨decodeWord_encode (i := .bltu ra rb off) (decide_eq_true ⟨hlo, hhi⟩), htaken,
    fun hle => hnot (Nat.not_lt.2 hle)⟩

/-- Settles O22, by the two ways of a branch. -/
theorem bgeuBranchesWhenNotBelow : Obligations.BgeuBranchesWhenNotBelow := by
  intro ra rb off s hlo hhi
  obtain ⟨htaken, hnot⟩ := exec_branches (exec_bgeu ra rb off s)
  exact ⟨decodeWord_encode (i := .bgeu ra rb off) (decide_eq_true ⟨hlo, hhi⟩), htaken,
    fun hlt => hnot (Nat.not_le.2 hlt)⟩

/-- Settles O23: HALT leaves pc, so the run that an accepted START begins fetches it again. -/
theorem haltEndsTheRun : Obligations.HaltEndsTheRun := by
  have hword (w : Word) : decodeWord w = .ok .halt ↔ w = 0x08000000 := decodeWord_eq_iff_encode rfl
  refine ⟨hword, fun s => ⟨haltRun s, exec_halt s, rfl, ?_⟩, fun s v hb hf hpc hw h0 h1 => ?_⟩
  · rw [State.irq, haltRun_done, haltRun_irqEn, Bool.true_or, Bool.and_true]
  · have hstart := step_accepted_start (rest := []) (v := v)
      (s := { s with env := [.access (.write (s.params.base + 0x008) 4 v)] }) rfl hb hf h0 h1
    have hhalt := step_decoded (.inl ⟨rfl, rfl⟩) rfl hpc ((hword _).2 hw)
      (s := { s with env := [], irqEn := v.getLsbD 2, done := false, busy := true })
    rw [run_next hstart, run_next (hhalt.trans (exec_halt _)), run_zero, haltRun, hb]

end Sys2Proof.Proofs
end

section
/-! Exceptions: the causes an instruction raises, the record a fault leaves, and the restart after a
fault; and the proofs of the statements about them. -/

namespace Sys2Proof

/-- The causes the rule of an instruction lists, in the order of its checks (rules R100 to R131,
R160). -/
def Instr.causes : Instr → List Machine.Cause
  | .nop | .halt | .jmp _ => []
  | .beq _ _ _ | .bne _ _ _ | .bltu _ _ _ | .bgeu _ _ _ => []
  | .ldi _ _ | .mov _ _ => []
  | .sqr _ _ | .inc _ _ | .mul _ _ _ => [.overflow]
  | .dec _ _ => [.range]
  | .lcm _ _ _ => [.zeroDivide, .overflow]
  | .lfn _ _ _ => [.zeroDivide, .range]
  | .modpow _ _ _ _ | .modmul _ _ _ _ => [.zeroModulus]
  | .modinv _ _ _ => [.zeroModulus, .inverseError]
  | .montmul _ _ _ _ => [.zeroModulus, .evenModulus]

/-- FETCH_RANGE is raised by the fetch alone (rule R140). -/
theorem Instr.fetchRange_notMem_causes (i : Instr) : .fetchRange ∉ i.causes := by
  cases i <;> simp [Instr.causes]

end Sys2Proof

namespace Sys2Proof.Machine

/-! ## The causes of an instruction -/

/-- A state with FAULT that `o` answers is the fault entry, from `s`, of a cause that the rule of `i`
lists. -/
def RaisesOnlyCauses (i : Instr) (s : State) (o : StepResult) : Prop :=
  ∀ t, o = .next t → t.fault = true → ∃ c ∈ i.causes, t = takeFault c (encode i) s

section
variable {i : Instr} {s : State}

theorem RaisesOnlyCauses.raise {c : Cause} (hc : c ∈ i.causes) :
    RaisesOnlyCauses i s (raiseFault c i s) := by
  rintro _ ⟨⟩ _
  exact ⟨c, hc, rfl⟩

theorem RaisesOnlyCauses.next {u : State} (hu : u.fault = false) :
    RaisesOnlyCauses i s (.next u) := by
  rintro _ ⟨⟩ ht
  exact absurd (hu.symm.trans ht) (by decide)

theorem RaisesOnlyCauses.ite {c : Prop} [Decidable c] {a b : StepResult}
    (ha : RaisesOnlyCauses i s a) (hb : RaisesOnlyCauses i s b) :
    RaisesOnlyCauses i s (if c then a else b) := by
  split
  · exact ha
  · exact hb

theorem RaisesOnlyCauses.branchIf (hf : s.fault = false) (c : Bool) (off : Int) :
    RaisesOnlyCauses i s (.next (branchIf c off s)) := by
  rw [branchIf_eq]
  exact .next hf

/-- An instruction raises the causes its rule lists and no other (rules R160, R161). -/
theorem exec_raisesOnlyCauses (i : Instr) (hf : s.fault = false) :
    RaisesOnlyCauses i s (exec i s) := by
  cases i with
  | nop | halt | jmp | ldi | mov => exact .next hf
  | beq | bne | bltu | bgeu => exact .branchIf hf _ _
  | sqr | inc | mul => exact .ite (.next hf) (.raise (.head _))
  | dec | modpow | modmul => exact .ite (.raise (.head _)) (.next hf)
  | lcm => exact .ite (.raise (.head _)) (.ite (.next hf) (.raise (.tail _ (.head _))))
  | lfn | modinv | montmul =>
    exact .ite (.raise (.head _)) (.ite (.raise (.tail _ (.head _))) (.next hf))

end

/-! ## The record of a fault -/

/-- A step that is the running sequencer's has one of its effects. -/
theorem seqEffect_of_step {s t : State} {rest : List Event} (hn : SequencerNext s rest)
    (hb : s.busy = true) (h : step s = .next t) : SeqEffect { s with env := rest } t := by
  obtain ⟨u, hu, he⟩ := seqStep_effect { s with env := rest }
  rw [step_of_sequencerNext_busy hn hb, hu] at h
  cases h
  exact he

/-- FETCH_RANGE is the one cause with code 2 (rule R160). -/
theorem code_eq_two_iff (c : Cause) : c.code = 2 ↔ c = .fetchRange := by
  cases c <;> decide

/-- The word a fault records: the word at pc, or 0 when pc is past IMEM (rules R140, R162). -/
theorem fetch_getD_zero (s : State) :
    s.fetch.getD 0 = if s.pc.toNat < s.params.imemWords then s.imemWord s.pc.toNat else 0 := by
  unfold State.fetch
  split <;> rfl

/-- A step of the sequencer that ends in FAULT is a fault entry with the fetched word, and its cause
is FETCH_RANGE exactly when there is none (rules R140, R162 to R164). -/
theorem seqEffect_takeFault {s t : State} (h : SeqEffect s t) (hf : s.fault = false)
    (ht : t.fault = true) :
    ∃ c, t = takeFault c (s.fetch.getD 0) s ∧
      (c = .fetchRange ↔ s.params.imemWords ≤ s.pc.toNat) := by
  rw [fetch_getD_zero]
  cases h with
  | fetchRange hpc =>
    rw [if_neg (Nat.not_lt.2 hpc)]
    exact ⟨_, rfl, iff_of_true rfl hpc⟩
  | illegal e hpc =>
    rw [if_pos hpc]
    exact ⟨_, rfl, iff_of_false (by decide) (Nat.not_le.2 hpc)⟩
  | runs i t hpc hd hx =>
    obtain ⟨c, hc, rfl⟩ := exec_raisesOnlyCauses i hf t hx ht
    have hne : c ≠ .fetchRange := fun e => i.fetchRange_notMem_causes (e ▸ hc)
    rw [if_pos hpc, ← (decodeWord_eq_ok_iff.1 hd).2]
    exact ⟨c, rfl, iff_of_false hne (Nat.not_le.2 hpc)⟩

/-! ## START, and the restart after a fault -/

/-- A START while BUSY or FAULT stores IRQ_EN and sets WERR (rules R30, R177). -/
theorem step_refused_start {s : State} {v : Word} {rest : List Event}
    (he : s.env = .access (.write (s.params.base + 0x008) 4 v) :: rest)
    (h : s.busy = true ∨ s.fault = true) (h0 : v.getLsbD 0 = true) (h1 : v.getLsbD 1 = false) :
    step s = .next { s with env := rest, irqEn := v.getLsbD 2, werr := true } := by
  rw [step_hostWrite he (by decide), memWrite_ctrl, writeCtrl_start h1 h0]
  exact congrArg _ (start_refused h)

/-- The bits of the word that starts a run: START, no SRST, and IRQ_EN as wanted (rule R30). -/
theorem startWord_bits (irq : Bool) :
    (if irq then 5 else 1 : Word).getLsbD 0 = true ∧
      (if irq then 5 else 1 : Word).getLsbD 1 = false ∧
      (if irq then 5 else 1 : Word).getLsbD 2 = irq := by
  cases irq <;> decide

/-- A write of 4 to STATUS clears FAULT and no other bit (rules R29, R166). -/
theorem step_clearFault {s : State} {rest : List Event}
    (he : s.env = .access (.write (s.params.base + 0x00C) 4 4) :: rest) :
    step s = .next { s with env := rest, fault := false } := by
  rw [step_hostWrite he (by decide), memWrite_status]
  simp [clearStatus]

/-- The two writes of rule R166 on an idle block clear FAULT and DONE and begin a run; all else
stands. -/
theorem run_restartAfterFault {t : State} (hb : t.busy = false) (later : List Event) :
    core.run 2 { t with env := restartAfterFault t.params t.irqEn ++ later } =
      .next { t with env := later, done := false, fault := false, busy := true } := by
  have hclear : step { t with env := restartAfterFault t.params t.irqEn ++ later } =
      .next { t with env := startRun t.params t.irqEn ++ later, fault := false } :=
    step_clearFault rfl
  obtain ⟨h0, h1, h2⟩ := startWord_bits t.irqEn
  have hstart := step_accepted_start (rest := later)
    (s := { t with env := startRun t.params t.irqEn ++ later, fault := false }) rfl hb rfl h0 h1
  rw [run_next hclear, run_next hstart, h2, run_zero]

section
variable {s t : State} {rest : List Event} (h : SeqEffect { s with env := rest } t)
  (hb : s.busy = true) (hf : s.fault = false) (ht : t.fault = true)
include h hb hf ht

/-- A faulting step reads nothing of the record of an earlier fault: whatever CAUSE, FPC and FINSN
hold, it answers the same state (rule R163). -/
theorem step_ignores_record (c : BitVec 8) (p : BitVec 16) (w : Word) :
    step { s with env := .sequencer :: rest, cause := c, fpc := p, finsn := w } = .next t := by
  have hn : SequencerNext
      { s with env := .sequencer :: rest, cause := c, fpc := p, finsn := w } rest := .inr rfl
  cases h with
  | fetchRange hpc => exact step_fetchRange hn hb hpc
  | illegal e hpc hd => exact step_illegal hn hb hpc hd
  | runs i t hpc hd hx =>
    refine (step_decoded hn hb hpc hd).trans ?_
    obtain ⟨u, hu, hs, hs'⟩ := exec_sameUpdate (i := i) (s := { s with env := rest })
      (s' := { s with env := rest, cause := c, fpc := p, finsn := w }) rfl rfl fun _ _ => rfl
    rw [hs] at hx
    cases hx
    refine hs'.trans ?_
    cases hu with
    | fault => rfl
    | retire | transfer | halt => exact absurd (hf.symm.trans ht) (by decide)

/-- From the state a faulting step leaves, with the run begun again, the step faults again (rule
R166): all but the record is as it was before the step. -/
theorem step_faults_again (hd : s.done = false) :
    step { t with env := .sequencer :: rest, done := false, fault := false, busy := true } =
      .next t := by
  have hagain := step_ignores_record h hb hf ht
  obtain ⟨c, heq, -⟩ := seqEffect_takeFault h hf ht
  rw [hb, hd, hf] at hagain
  rw [heq] at hagain ⊢
  exact hagain _ _ _

end

end Sys2Proof.Machine

namespace Sys2Proof.Proofs

open Sys2Proof Sys2Proof.Machine

/-- Settles O38: a fault's cause is one of the instruction's, and each has its code. -/
theorem eachInstructionRaisesOnlyItsCauses : Obligations.EachInstructionRaisesOnlyItsCauses := by
  intro i s t hf h ht
  obtain ⟨c, hc, rfl⟩ := exec_raisesOnlyCauses i hf t h ht
  have hcode : c.code ∈ i.causes.map Cause.code := List.mem_map_of_mem hc
  cases i with
  | nop | halt | jmp | beq | bne | bltu | bgeu | ldi | mov => exact List.not_mem_nil hc
  | sqr | inc | mul | dec | modpow | modmul => exact List.mem_singleton.1 hcode
  | lcm | lfn | modinv | montmul => exact List.mem_pair.1 hcode

/-- Settles O39: a step that ends in FAULT is a fault entry with the fetched word. -/
theorem faultsArePreciseAndRecorded : Obligations.FaultsArePreciseAndRecorded := by
  intro s t rest hn hb hf h ht
  have he := seqEffect_of_step hn hb h
  obtain ⟨c, rfl, hc⟩ := seqEffect_takeFault he hf ht
  obtain ⟨hlo, hhi⟩ := code_bounds c
  rw [fetch_getD_zero]
  exact ⟨rfl, hlo, hhi, (code_eq_two_iff c).trans hc⟩

/-- Settles O42: the two writes give back the state before the step but for the record of the fault,
and a step that faults overwrites that record. -/
theorem restartAfterAFaultFaultsAgain : Obligations.RestartAfterAFaultFaultsAgain := by
  intro s t rest hinv hn hb h ht
  obtain ⟨hd, hf⟩ := hinv.busy_idle hb
  have he := seqEffect_of_step hn hb h
  obtain ⟨c, heq, -⟩ := seqEffect_takeFault he hf ht
  have hidle : t.busy = false := heq ▸ rfl
  obtain ⟨hparams : t.params = s.params, -, -, hirqEn : t.irqEn = s.irqEn, -⟩ := seqEffect_frame he
  rw [← hparams, ← hirqEn]
  refine (run_add 2 1 (run_restartAfterFault hidle (.sequencer :: rest))).trans ?_
  rw [run_next (step_faults_again he hb hf ht hd), run_zero]

/-- Settles O50: the two answers of START. -/
theorem startNeedsAnIdleUnfaultedBlock : Obligations.StartNeedsAnIdleUnfaultedBlock :=
  fun _ _ _ he h0 h1 => ⟨fun h => step_refused_start he h h0 h1,
    fun hb hf => step_accepted_start he hb hf h0 h1⟩

end Sys2Proof.Proofs
end

section
/-! Reset and bring-up: what a list of host writes leads to, write by write, and the proofs of the
statements about the two resets and the host's bring-up that rest on it. -/

namespace Sys2Proof.Machine

/-! ## Events one after another -/

/-- The events of the list, whatever comes after them, lead from `s` to `t`. -/
def EventsLead (es : List Event) (s t : State) : Prop :=
  ∀ later, core.run es.length { s with env := es ++ later } = .next { t with env := later }

theorem EventsLead.nil (s : State) : EventsLead [] s s := fun _ => rfl

theorem EventsLead.append {es es' : List Event} {s t u : State} (h : EventsLead es s t)
    (h' : EventsLead es' t u) : EventsLead (es ++ es') s u := by
  intro later
  rw [List.length_append, List.append_assoc, run_add _ _ (h _)]
  exact h' later

/-- One supported host write in the window (rules R61, R69). -/
theorem EventsLead.write {s t : State} {a : Nat} {v : Word} (ha : a < 0x8000)
    (h : ∀ env, memWrite a 4 v { s with env := env } = { t with env := env }) :
    EventsLead [hostWrite s.params a v] s t :=
  fun later => (run_next (step_hostWrite rfl ha) 0).trans (congrArg _ (h later))

/-- A write that is dropped during a run, on an idle block (rule R58). -/
theorem EventsLead.writeIdle {s : State} {a : Nat} {v : Word} {f : State → State}
    (hb : s.busy = false) (ha : a < 0x8000)
    (hw : ∀ env, memWrite a 4 v { s with env := env } = whileIdle f { s with env := env })
    (hf : ∀ env, f { s with env := env } = { f s with env := env }) :
    EventsLead [hostWrite s.params a v] s (f s) :=
  .write ha fun env => (hw env).trans
    ((whileIdle_idle (s := { s with env := env }) hb f).trans (hf env))

/-! ## The program (rule R54) -/

/-- Consecutive words stored from an offset on. -/
def Memory.writeWords : Memory → Nat → List Word → Memory
  | m, _, [] => m
  | m, a, v :: ws => (m.writeWord a v).writeWords (a + 4) ws

theorem Memory.read_writeWords_other {b : Nat} (ws : List Word) (m : Memory) {a : Nat}
    (h : b < a ∨ a + 4 * ws.length ≤ b) : (m.writeWords a ws).read b = m.read b := by
  induction ws generalizing m a with
  | nil => rfl
  | cons v ws ih =>
    rw [List.length_cons] at h
    rw [Memory.writeWords, ih _ (by omega), Memory.read_writeWord_other (by omega)]

/-- A word is read from its four bytes alone (rule R53). -/
theorem Memory.readWord_congr {m m' : Memory} {a : Nat}
    (h : ∀ j < 4, m.read (a + j) = m'.read (a + j)) : m.readWord a = m'.readWord a := by
  have h0 : m.read a = m'.read a := h 0 (by decide)
  rw [Memory.readWord, Memory.readWord, h0, h 1 (by decide), h 2 (by decide), h 3 (by decide)]

theorem Memory.readWord_writeWords (ws : List Word) {m : Memory} (hm : m.wf = true) {a : Nat}
    (i : Nat) (h : i < ws.length) : (m.writeWords a ws).readWord (a + 4 * i) = ws[i] := by
  induction ws generalizing m a i with
  | nil => exact absurd h (Nat.not_lt_zero i)
  | cons v ws ih =>
    cases i with
    | zero =>
      refine (Memory.readWord_congr fun j hj => ?_).trans (Memory.readWord_writeWord_same hm a v)
      exact Memory.read_writeWords_other ws _ (.inl (by omega))
    | succ i =>
      have htail := ih (Memory.wf_writeWord hm a v) (a := a + 4) i (Nat.lt_of_succ_lt_succ h)
      rwa [Nat.add_assoc, Nat.add_comm 4] at htail

/-- Words written into IMEM[i], IMEM[i + 1] and on. -/
def State.setImemWords (i : Nat) (ws : List Word) (s : State) : State :=
  { s with imem := s.imem.writeWords (imemAddr i) ws }

theorem setImemWords_cons (i : Nat) (v : Word) (ws : List Word) (s : State) :
    s.setImemWords i (v :: ws) = (State.setImemWord i v s).setImemWords (i + 1) ws := rfl

section
variable {s : State} {i : Nat} (ws : List Word) (hinv : s.Inv)
  (h : i + ws.length ≤ s.params.imemWords)
include hinv h

theorem State.Inv.setImemWords : (s.setImemWords i ws).Inv := by
  induction ws generalizing s i with
  | nil => exact hinv
  | cons v ws ih =>
    rw [List.length_cons] at h
    have hi : i < s.params.imemWords := by omega
    rw [setImemWords_cons]
    exact ih (hinv.setImemWord hi v) (by rw [setImemWord_params]; omega)

/-- The writes of consecutive words of IMEM on an idle block. -/
theorem eventsLead_writeImem (hb : s.busy = false) :
    EventsLead (hostWriteWords s.params (imemAddr i) ws) s (s.setImemWords i ws) := by
  induction ws generalizing s i with
  | nil => exact .nil s
  | cons v ws ih =>
    obtain ⟨-, -, -, himem, -⟩ := legal_bounds hinv.params_legal
    rw [List.length_cons] at h
    have hi : i < s.params.imemWords := by omega
    have hfirst : EventsLead [hostWrite s.params (imemAddr i) v] s (State.setImemWord i v s) :=
      .writeIdle hb (by rw [imemAddr, Config.imemOffset]; omega)
        (fun env => memWrite_imemWord (s := { s with env := env }) hi v) fun _ => rfl
    rw [setImemWords_cons]
    exact hfirst.append
      (ih (i := i + 1) (hinv.setImemWord hi v) (by rw [setImemWord_params]; omega) hb)

end

/-! ## The operands (rule R52) -/

/-- A value of the width is determined by its limbs (rule R52). -/
theorem eq_of_limbs {n u v : Nat} (hu : u < 2 ^ (32 * n)) (hv : v < 2 ^ (32 * n))
    (h : ∀ j < n, limb u j = limb v j) : u = v := by
  rw [← Nat.mod_eq_of_lt hu, ← Nat.mod_eq_of_lt hv, sum_limbs, sum_limbs]
  exact congrArg List.sum (List.map_congr_left fun j hj => by rw [h j (List.mem_range.1 hj)])

theorem setReg_reg (r : Reg) (s : State) : s.setReg r (s.reg r) = s := by
  simp [State.setReg, State.reg]

/-- The limbs of `v` from limb k on, written into a register that holds its limbs below k, leave `v`
there. -/
theorem eventsLead_writeLimbs {r : Reg} {v : Nat} (m : Nat) {s : State} (hinv : s.Inv)
    (hb : s.busy = false) (hv : v < 2 ^ s.params.width) {k : Nat} (hk : k + m = s.params.nlimbs)
    (hlow : ∀ j < k, limb (s.reg r) j = limb v j) :
    EventsLead (hostWriteWords s.params (Config.regOffset + 4 * (r.val * s.params.nlimbs + k))
      ((List.range' k m).map (limb v))) s (s.setReg r v) := by
  induction m generalizing s k with
  | zero =>
    have hreg : s.reg r = v := eq_of_limbs (hinv.regs_fit r) hv (hk ▸ hlow)
    rw [← hreg, setReg_reg]
    exact .nil s
  | succ m ih =>
    obtain ⟨-, hn, -⟩ := legal_bounds hinv.params_legal
    have hlt : k < s.params.nlimbs := by omega
    have hindex := limb_index_lt r hlt
    have hlimb := setLimb_lt (hinv.regs_fit r) hlt (limb v k)
    have hfirst : EventsLead [hostWrite s.params
        (Config.regOffset + 4 * (r.val * s.params.nlimbs + k)) (limb v k)] s
        (s.setReg r (setLimb (s.reg r) k (limb v k))) :=
      .writeIdle (f := fun s => s.setReg r (setLimb (s.reg r) k (limb v k))) hb
        (by rw [Config.regOffset]; omega)
        (fun env => memWrite_regLimb (s := { s with env := env }) hinv.params_legal r hlt _)
        fun _ => rfl
    have hnext : ∀ j < k + 1,
        limb ((s.setReg r (setLimb (s.reg r) k (limb v k))).reg r) j = limb v j := by
      intro j hj
      rw [reg_setReg_same, limb_setLimb]
      split
      · next e => rw [e]
      · exact hlow j (by omega)
    have hrest := ih (hinv.setReg r hlimb) hb hv (by rw [setReg_params]; omega) hnext
    rw [setReg_setReg] at hrest
    exact hfirst.append hrest

/-- An operand written whole (rule R194 step 4). -/
theorem eventsLead_loadOperand {s : State} (hinv : s.Inv) (hb : s.busy = false) (r : Reg) {v : Nat}
    (hv : v < 2 ^ s.params.width) : EventsLead (loadOperand s.params r v) s (s.setReg r v) := by
  rw [loadOperand, List.range_eq_range']
  exact eventsLead_writeLimbs _ hinv hb hv (Nat.zero_add _) fun j hj =>
    absurd hj (Nat.not_lt_zero j)

/-- Operands written into their registers, one after another. -/
def State.setRegs (operands : List (Reg × Nat)) (s : State) : State :=
  { s with x := operands.foldl (fun x q => x.set q.1.val q.2) s.x }

theorem setRegs_cons (q : Reg × Nat) (operands : List (Reg × Nat)) (s : State) :
    s.setRegs (q :: operands) = (s.setReg q.1 q.2).setRegs operands := rfl

theorem reg_setRegs_other {r : Reg} (operands : List (Reg × Nat)) (s : State)
    (h : r ∉ operands.map Prod.fst) : (s.setRegs operands).reg r = s.reg r := by
  induction operands generalizing s with
  | nil => rfl
  | cons q operands ih =>
    obtain ⟨hne, htail⟩ := List.ne_and_not_mem_of_not_mem_cons h
    rw [setRegs_cons, ih _ htail, reg_setReg_other hne]

theorem reg_setRegs_of_mem {q : Reg × Nat} (operands : List (Reg × Nat)) (s : State)
    (hn : (operands.map Prod.fst).Nodup) (h : q ∈ operands) :
    (s.setRegs operands).reg q.1 = q.2 := by
  induction operands generalizing s with
  | nil => exact absurd h List.not_mem_nil
  | cons q' operands ih =>
    obtain ⟨hhead, htail⟩ := List.nodup_cons.1 hn
    rw [setRegs_cons]
    rcases List.mem_cons.1 h with rfl | h
    · rw [reg_setRegs_other _ _ hhead, reg_setReg_same]
    · exact ih _ htail h

theorem eventsLead_loadOperands (operands : List (Reg × Nat)) {s : State} (hinv : s.Inv)
    (hb : s.busy = false) (hv : ∀ q ∈ operands, q.2 < 2 ^ s.params.width) :
    EventsLead (operands.flatMap fun q => loadOperand s.params q.1 q.2) s (s.setRegs operands) := by
  induction operands generalizing s with
  | nil => exact .nil s
  | cons q operands ih =>
    obtain ⟨hq, hv⟩ := List.forall_mem_cons.1 hv
    rw [List.flatMap_cons]
    exact (eventsLead_loadOperand hinv hb q.1 hq).append (ih (hinv.setReg q.1 hq) hb hv)

/-! ## PC, WERR and START (rule R194 steps 5 to 7) -/

theorem eventsLead_setEntry {s : State} (hb : s.busy = false) (entry : Option (BitVec 16)) :
    EventsLead (setEntry s.params entry) s { s with pc := entry.getD s.pc } := by
  cases entry with
  | none => exact .nil s
  | some e =>
    have he : (e.zeroExtend 32).extractLsb' 0 16 = e := by
      rw [← BitVec.setWidth_eq_extractLsb' (by decide)]
      exact BitVec.setWidth_setWidth_of_le e (by decide)
    exact .writeIdle (f := jumpTo e) hb (by decide) (fun _ => by rw [memWrite_pc, he]) fun _ => rfl

theorem eventsLead_clearErrors (s : State) (clear : Bool) :
    EventsLead (clearErrors s.params clear) s { s with werr := s.werr && !clear } := by
  cases clear with
  | false =>
    rw [Bool.not_false, Bool.and_true]
    exact .nil s
  | true =>
    refine .write (by decide) fun env => ?_
    rw [memWrite_status]
    simp [clearStatus]

theorem eventsLead_startRun {s : State} (hb : s.busy = false) (hf : s.fault = false) (irq : Bool) :
    EventsLead (startRun s.params irq) s { s with irqEn := irq, done := false, busy := true } := by
  obtain ⟨h0, h1, h2⟩ := startWord_bits irq
  refine .write (by decide) fun env => ?_
  rw [memWrite_ctrl, writeCtrl_start h1 h0, h2]
  exact start_accepted hb hf

/-! ## The bring-up -/

/-- The writes of rule R194 steps 3 to 7, in their order. -/
theorem eventsLead_bringUp {s : State} {program : List Word} {operands : List (Reg × Nat)}
    (hinv : s.Inv) (hb : s.busy = false) (hf : s.fault = false)
    (hprogram : program.length ≤ s.params.imemWords)
    (hv : ∀ q ∈ operands, q.2 < 2 ^ s.params.width)
    (entry : Option (BitVec 16)) (clear irq : Bool) :
    EventsLead (bringUp s.params program operands entry clear irq) s
      { (s.setImemWords 0 program).setRegs operands with
        pc := entry.getD s.pc, werr := s.werr && !clear,
        irqEn := irq, done := false, busy := true } := by
  have hlen : 0 + program.length ≤ s.params.imemWords := (Nat.zero_add _).symm ▸ hprogram
  have hprog := eventsLead_writeImem program hinv hlen hb
  have hops := eventsLead_loadOperands operands (hinv.setImemWords program hlen) hb hv
  have hentry := (hprog.append hops).append (eventsLead_setEntry (by exact hb) entry)
  have hclear := hentry.append (eventsLead_clearErrors _ clear)
  exact hclear.append (eventsLead_startRun (by exact hb) (by exact hf) irq)

end Sys2Proof.Machine

namespace Sys2Proof.Proofs

open Sys2Proof Sys2Proof.Machine

/-- Settles O55: the writes lead to a state that is written out, and it is read by the laws of a word
and of a register write. -/
theorem bringUpStartsTheProgramOnItsOperands : Obligations.BringUpStartsTheProgramOnItsOperands := by
  intro s program operands entry clear irq hinv hb hf hprogram hv hn
  have hrun := eventsLead_bringUp hinv hb hf hprogram hv entry clear irq []
  rw [List.append_nil] at hrun
  refine ⟨_, hrun, Memory.readWord_writeWords program hinv.imem_wf, fun a ha =>
    Memory.read_writeWords_other program s.imem ha, fun q hq => ?_, fun r hr => ?_, rfl⟩
  · exact reg_setRegs_of_mem operands s hn hq
  · exact reg_setRegs_other operands s hr

/-- Settles O5: the fields of a hardware reset. -/
theorem hardwareResetClearsTheBlock : Obligations.HardwareResetClearsTheBlock := by
  intro s rest he
  have himem (i : Nat) : (hardReset { s with env := rest }).imemWord i = 0 := by
    simp [State.imemWord, Memory.readWord]
  exact ⟨_, step_cons he, reg_hardReset _, himem, rfl, rfl, rfl, rfl, rfl, rfl, rfl, rfl, rfl, rfl,
    rfl, rfl, rfl⟩

/-- Settles O51: SRST takes precedence in a write of CTRL, and the fields of a soft reset. -/
theorem softResetClearsAllButImem : Obligations.SoftResetClearsAllButImem := by
  intro s v rest he h1
  have hstep : step s = .next (softReset { s with env := rest }) := by
    rw [step_hostWrite he (by decide), memWrite_ctrl, writeCtrl_srst h1]
  exact ⟨_, hstep, reg_softReset _, rfl, rfl, rfl, rfl, rfl, rfl, rfl, rfl, rfl, rfl, rfl, rfl, rfl⟩

end Sys2Proof.Proofs
end
